-- ==== Sys2Proof/Word.lean ====
section
/-! DEFINITION. The widths of the machine's values (00_scope.md rule R5) and the pieces of a 16-bit
instruction word (30_encoding.md rules R60 and R62). -/

namespace Sys2Proof

/-- A register, a memory cell, an output event: 8 bits, unsigned (rule R5). -/
abbrev Byte := BitVec 8

/-- One hex digit of an instruction word (rule R6). -/
abbrev Nibble := BitVec 4

/-- An instruction word, `d0 d1 d2 d3` (rule R62). -/
abbrev Word := BitVec 16

/-- A general register's index, the value of the nibble that names it (rule R63). -/
abbrev RegIdx := BitVec 4

/-- A value of the program counter: 9 bits (rules R5 and R25; UNVERIFIED, the spec's decision D3, log 22). -/
abbrev PcVal := BitVec 9

end Sys2Proof
end

