-- ==== Sys2Proof/Config.lean ====
section
/-! DEFINITION. The block's parameters (00_scope.md rule R5). -/

namespace Sys2Proof.Config

/-- `MEM_SIZE`: 256 cells, addresses 0x00 to 0xFF (rule R5). -/
def memSize : Nat := 256

/-- `PC_STEP`: every instruction is two bytes (rules R5 and R70). -/
def pcStep : Nat := 2

/-- `LOAD_OFFSET`: where `loadProgram` puts the first token and where `pc` starts (rules R5 and R50). -/
def loadOffset : Nat := 0x10

/-- `OUTPUT_CELL`: a STORE there is also an output event (rules R5 and R43). -/
def outputCell : Nat := 0x00

/-- What a memory cell that nothing has written reads as: "created zero-filled" (rule R220). -/
def unlistedByte : Byte := 0x00

/-- What a read outside the memory returns (rule R41). -/
def outOfRangeByte : Byte := 0x00

/-- The registers at reset. DESIGN CHOICE (log 1): the spec leaves `reg_reset` open (rule R222, decision D5);
the model's own reset state takes zeros. `State.resetWith` takes any choice. -/
def regReset : Vector Byte 16 := Vector.replicate 16 0x00

end Sys2Proof.Config
end

