-- ==== Sys2Proof/Syntax.lean ====
section
/-! DEFINITION. The instructions: one constructor for each row of spec/opcode_table.json
(30_encoding.md rules R62, R67 and R72). -/

namespace Sys2Proof

/-- An instruction with the fields of rule R62. A nibble that an opcode ignores is no field: any value in it
"gives the same instruction" (rule R69; UNVERIFIED, the spec's decision D12, log 30). The three invalid rows
of the table keep their twelve bits, since the decode-failure record holds the whole word (rule R202). -/
inductive Instr where
  /-- `1rxy`: `R[r] <- xy` (rule R100). -/
  | loadi (r : RegIdx) (xy : Byte)
  /-- `2rxy`: `R[r] <- mem[xy]` (rule R101). -/
  | load (r : RegIdx) (xy : Byte)
  /-- `3rxy`: `mem[xy] <- R[r]` (rule R102). -/
  | store (r : RegIdx) (xy : Byte)
  /-- `4-st`: `R[t] <- R[s]` (rule R103). -/
  | move (s t : RegIdx)
  /-- `5rst`: `R[r] <- R[s] + R[t]` (rule R120). -/
  | add (r s t : RegIdx)
  /-- `6rst`: `R[r] <- floatAdd(R[s], R[t])` (rule R129). -/
  | addf (r s t : RegIdx)
  /-- `7rst`: bitwise OR (rule R150). -/
  | or (r s t : RegIdx)
  /-- `8rst`: bitwise AND (rule R151). -/
  | and (r s t : RegIdx)
  /-- `9rst`: bitwise XOR (rule R152). -/
  | xor (r s t : RegIdx)
  /-- `Ar-n`: logical right shift of `R[r]` by `n` (rule R153). -/
  | rot (r : RegIdx) (n : Nibble)
  /-- `Brxy`: jump if `R[r] = R0` (rule R170). -/
  | jmpeq (r : RegIdx) (xy : Byte)
  /-- `C---`: stop the engine (rule R171). -/
  | halt
  /-- `Drxy`: jump if `R[r] > R0` (rule R172). -/
  | jmpgt (r : RegIdx) (xy : Byte)
  /-- `0---`: not an instruction; decode failure, subcause MalformedWord (rule R173; DESIGN CHOICE, log 5). -/
  | illegal0 (u : BitVec 12)
  /-- `E---`: not an instruction; decode failure, subcause UnrecognizedOpcode (rule R173; DESIGN CHOICE, log 5). -/
  | illegalE (u : BitVec 12)
  /-- `F---`: not an instruction; decode failure, subcause UnrecognizedOpcode (rule R173; DESIGN CHOICE, log 5). -/
  | illegalF (u : BitVec 12)
  deriving DecidableEq, Repr

end Sys2Proof
end

