-- ==== Sys2Proof/WellFormed.lean ====
section
/-! DEFINITION. Which terms of `Instr` are instructions of the block (30_encoding.md rules R67 and R68).
Every operand is a bit vector of its field's width, so no operand can be out of its range. -/

namespace Sys2Proof

/-- The 13 instructions are well formed; the three invalid rows of the table are not (rule R68). -/
def Instr.wellFormed : Instr → Bool
  | .loadi _ _ => true
  | .load _ _ => true
  | .store _ _ => true
  | .move _ _ => true
  | .add _ _ _ => true
  | .addf _ _ _ => true
  | .or _ _ _ => true
  | .and _ _ _ => true
  | .xor _ _ _ => true
  | .rot _ _ => true
  | .jmpeq _ _ => true
  | .halt => true
  | .jmpgt _ _ => true
  | .illegal0 _ => false
  | .illegalE _ => false
  | .illegalF _ => false

end Sys2Proof
end

