-- ==== Sys2Proof/Decode.lean ====
section
/-! DEFINITION. The decoder, total on every word (30_encoding.md rules R60 to R73), and after it the
encoder (rule R72). -/

namespace Sys2Proof

/-- The subcause of a decode failure (60_exceptions.md rule R202; UNVERIFIED, the spec's decision D8, log 26). -/
inductive Subcause where
  /-- The word's first nibble is 0, so it renders to fewer than four characters (rule R61). -/
  | malformedWord
  /-- The word's first nibble is E or F (rule R68). -/
  | unrecognizedOpcode
  deriving DecidableEq, Repr

/-- `b0 b1` as one word, the first byte most significant (rules R46 and R60). -/
def wordOf (b0 b1 : Byte) : Word := b0 ++ b1

/-- The opcode nibble, bits 15 to 12 (rule R62). -/
def d0 (w : Word) : Nibble := w.extractLsb' 12 4

/-- Bits 11 to 8 (rule R62). -/
def d1 (w : Word) : Nibble := w.extractLsb' 8 4

/-- Bits 7 to 4 (rule R62). -/
def d2 (w : Word) : Nibble := w.extractLsb' 4 4

/-- Bits 3 to 0 (rule R62). -/
def d3 (w : Word) : Nibble := w.extractLsb' 0 4

/-- The 8-bit literal, address or target, `d2 d3` (rule R64). -/
def fieldXy (w : Word) : Byte := w.extractLsb' 0 8

/-- The twelve bits after the opcode, which the three invalid rows of the table hold (rule R173). -/
def operandBits (w : Word) : BitVec 12 := w.extractLsb' 0 12

/-- The instruction of a word, selected by `d0` (rule R67). Total: every word is one of the 13 instructions or
one of the three invalid rows (rule R70). -/
def decodeWord (w : Word) : Instr :=
  match (d0 w).toNat with
  | 0x0 => .illegal0 (operandBits w)
  | 0x1 => .loadi (d1 w) (fieldXy w)
  | 0x2 => .load (d1 w) (fieldXy w)
  | 0x3 => .store (d1 w) (fieldXy w)
  | 0x4 => .move (d2 w) (d3 w)
  | 0x5 => .add (d1 w) (d2 w) (d3 w)
  | 0x6 => .addf (d1 w) (d2 w) (d3 w)
  | 0x7 => .or (d1 w) (d2 w) (d3 w)
  | 0x8 => .and (d1 w) (d2 w) (d3 w)
  | 0x9 => .xor (d1 w) (d2 w) (d3 w)
  | 0xA => .rot (d1 w) (d3 w)
  | 0xB => .jmpeq (d1 w) (fieldXy w)
  | 0xC => .halt
  | 0xD => .jmpgt (d1 w) (fieldXy w)
  | 0xE => .illegalE (operandBits w)
  | _ => .illegalF (operandBits w)

/-- The instruction of two fetched bytes (rule R60). -/
def decodeBytes (b0 b1 : Byte) : Instr := decodeWord (wordOf b0 b1)

/-- Why a row of the table is no instruction (rules R173 and R202); none for the 13 instructions. -/
def Instr.subcause : Instr → Option Subcause
  | .loadi _ _ => none
  | .load _ _ => none
  | .store _ _ => none
  | .move _ _ => none
  | .add _ _ _ => none
  | .addf _ _ _ => none
  | .or _ _ _ => none
  | .and _ _ _ => none
  | .xor _ _ _ => none
  | .rot _ _ => none
  | .jmpeq _ _ => none
  | .halt => none
  | .jmpgt _ _ => none
  | .illegal0 _ => some .malformedWord
  | .illegalE _ => some .unrecognizedOpcode
  | .illegalF _ => some .unrecognizedOpcode

/-- The decoder in the form of rule R73: one of the 13 instructions, or the failure's subcause. -/
def decode (b0 b1 : Byte) : Except Subcause Instr :=
  match (decodeBytes b0 b1).subcause with
  | none => .ok (decodeBytes b0 b1)
  | some sub => .error sub

/-- The opcode of each row (rule R67). -/
def Instr.opcode : Instr → Nibble
  | .illegal0 _ => 0x0
  | .loadi _ _ => 0x1
  | .load _ _ => 0x2
  | .store _ _ => 0x3
  | .move _ _ => 0x4
  | .add _ _ _ => 0x5
  | .addf _ _ _ => 0x6
  | .or _ _ _ => 0x7
  | .and _ _ _ => 0x8
  | .xor _ _ _ => 0x9
  | .rot _ _ => 0xA
  | .jmpeq _ _ => 0xB
  | .halt => 0xC
  | .jmpgt _ _ => 0xD
  | .illegalE _ => 0xE
  | .illegalF _ => 0xF

/-- The operand bits of shape RXY (rule R62). -/
def operandsRxy (r : RegIdx) (xy : Byte) : BitVec 12 := r ++ xy

/-- The operand bits of three nibbles `d1 d2 d3` (rule R62). -/
def operandsRst (r s t : Nibble) : BitVec 12 := r ++ s ++ t

/-- A word from its opcode and its operand bits (rule R62). -/
def wordOfParts (op : Nibble) (u : BitVec 12) : Word := op ++ u

/-- The twelve bits after the opcode. An ignored nibble is written 0, as a canonical encoder does (rule R72). -/
def Instr.operands : Instr → BitVec 12
  | .illegal0 u => u
  | .loadi r xy => operandsRxy r xy
  | .load r xy => operandsRxy r xy
  | .store r xy => operandsRxy r xy
  | .move s t => operandsRst 0x0 s t
  | .add r s t => operandsRst r s t
  | .addf r s t => operandsRst r s t
  | .or r s t => operandsRst r s t
  | .and r s t => operandsRst r s t
  | .xor r s t => operandsRst r s t
  | .rot r n => operandsRst r 0x0 n
  | .jmpeq r xy => operandsRxy r xy
  | .halt => 0x000
  | .jmpgt r xy => operandsRxy r xy
  | .illegalE u => u
  | .illegalF u => u

/-- The canonical word of an instruction (rules R62 and R72). -/
def encode (i : Instr) : Word := wordOfParts i.opcode i.operands

/-- The first, high byte of a word (rule R46). -/
def highByte (w : Word) : Byte := w.extractLsb' 8 8

/-- The second, low byte of a word (rule R46). -/
def lowByte (w : Word) : Byte := w.extractLsb' 0 8

/-- The word of an opcode-table row given as its lowest `nbits` bits; the bits above are 0. -/
def tableWord (nbits w : Nat) : Word := BitVec.ofNat 16 (w % 2 ^ nbits)

/-- What the decoder reads from an instruction whose bits are `w`, numbered as spec/opcode_table.json numbers
them: the word is laid out as the memory holds it, high byte first (rule R46), and decoded. An instruction has
16 bits (rule R70), so more bits than that are none. -/
def decodeTableWord (nbits w : Nat) : Option Instr :=
  if nbits ≤ 16 then
    some (decodeBytes (highByte (tableWord nbits w)) (lowByte (tableWord nbits w)))
  else
    none

end Sys2Proof
end

