-- ==== Sys2Proof/Machine/State.lean ====
section
/-! DEFINITION. The state of the machine (10_state.md rule R34), the reasons a step or a controller call can
stop, and the state at reset (70_reset_and_hazards.md rules R220 to R224). -/

namespace Sys2Proof.Machine

/-- Why a step stops the model. Closed: the spec names one case it gives no meaning (10_state.md rule R30). -/
inductive Fault where
  /-- An ADD at `pc` had the unsigned sum `sum` above 255 (42_arithmetic.md rule R120). Written into the state's
  fault mark by that ADD's meaning; raised by `step` in every state that carries the mark, since no step follows
  it (40_engine_cycle.md rule R81). SAFE: the model stops where the reference goes on (log 2 and 20). -/
  | addOverflow (pc : PcVal) (sum : Nat)
  deriving DecidableEq, Repr

/-- Why a call has no meaning. Closed. -/
inductive Refusal where
  /-- An instruction that has no meaning yet; no arm of `exec` answers with it now. SAFE: the model stops. -/
  | notModelled (mnemonic : String)
  /-- `loadProgram` got a token that is not four hex characters (40_engine_cycle.md rule R90, decision D14).
  Raised by the controller call only. SAFE: the call has no meaning (log 31). -/
  | badToken
  /-- A register index outside 0 to 15 (40_engine_cycle.md rule R92, decision D17). Raised by the controller's
  register accessors only. SAFE (log 33). -/
  | badRegister
  /-- A value outside 0 to 255 (rule R92, decision D17). Raised by the controller's writes only. SAFE (log 33). -/
  | badByte
  /-- A program counter value above 0x1FF (rule R92, decision D17). Raised by `writePC` only. SAFE (log 33). -/
  | badPc
  deriving DecidableEq, Repr

/-- The run state, the block's only control and status register (rule R26). -/
inductive RunState where
  | running
  | halted
  deriving DecidableEq, Repr

/-- The kind of a memory access, as the diagnostic records it (60_exceptions.md rule R201). -/
inductive AccessKind where
  | read
  | write
  deriving DecidableEq, Repr

/-- A diagnostic record (60_exceptions.md rule R205; UNVERIFIED, the spec's decision D8, log 26). -/
inductive Diagnostic where
  /-- A memory access outside 0x00 to 0xFF (rule R201). -/
  | outOfBoundsAccess (kind : AccessKind) (addr : Nat)
  /-- A word that is no instruction, with the `pc` of its first byte (rule R202). -/
  | decodeFailure (pc : PcVal) (word : Word) (sub : Subcause)
  /-- Never reported (rules R66 and R203). DESIGN CHOICE (log 7): the spec gives the record no content. -/
  | malformedOperandDigit
  deriving DecidableEq, Repr

/-- The memory: (address, byte) pairs, addresses rising, no byte equal to `Config.unlistedByte`
(the form is `Memory.wf` of Machine/Ops.lean). -/
abbrev Memory := List Host.Cell

/-- The complete machine state (rule R34). -/
structure State where
  /-- The general registers R0 to R15 (rule R20). -/
  regs : Vector Byte 16
  /-- The program counter (rule R25). -/
  pc : PcVal
  /-- The run state (rule R26). -/
  run : RunState
  /-- The 256 memory cells (rule R27). -/
  mem : Memory
  /-- The output channel, oldest event first (rule R28). -/
  out : List Byte
  /-- The diagnostic log, oldest record first (rule R29). -/
  diag : List Diagnostic
  /-- The fault mark (rule R30). -/
  fault : Option Fault
  deriving DecidableEq, Repr

/-- The machine at construction, for any choice of the open parameter `reg_reset` (rules R220 to R224). -/
def State.resetWith (regReset : Vector Byte 16) : State where
  regs := regReset
  pc := BitVec.ofNat 9 Config.loadOffset
  run := .running
  mem := []
  out := []
  diag := []
  fault := none

/-- The machine at reset. DESIGN CHOICE (log 1): the registers hold zeros. -/
def State.reset : State := State.resetWith Config.regReset

end Sys2Proof.Machine
end

