-- ==== Sys2Proof/Machine/Ops.lean ====
section
/-! DEFINITION. The named operations over memory, registers, channels and run state (00_scope.md rule R7),
the entry of a decode failure and the way back from Halted (60_exceptions.md rules R202, R207 and R208), the
program counter's update (40_engine_cycle.md rule R83) and the fetch (30_encoding.md rule R60). -/

namespace Sys2Proof.Machine

/-! ## The memory as data -/

/-- The byte listed for an address, or what an unlisted address reads as. -/
def Memory.get : Memory → Nat → Byte
  | [], _ => Config.unlistedByte
  | c :: m, a => if c.1 = a then c.2 else Memory.get m a

/-- The memory with nothing listed for an address. -/
def Memory.erase (m : Memory) (a : Nat) : Memory := m.filter fun c => c.1 ≠ a

/-- Put a cell before the first cell of a higher address. -/
def Memory.insert : Memory → Nat → Byte → Memory
  | [], a, v => [(a, v)]
  | c :: m, a, v => if a < c.1 then (a, v) :: c :: m else c :: Memory.insert m a v

/-- The memory with the byte of one address replaced. Writing what an unlisted address reads as removes the
entry. -/
def Memory.set (m : Memory) (a : Nat) (v : Byte) : Memory :=
  if v = Config.unlistedByte then Memory.erase m a else Memory.insert (Memory.erase m a) a v

/-- The canonical form of the part of a memory at addresses `lo` and above: addresses rising and inside the
memory, no byte equal to what an unlisted address reads as. -/
def Memory.wfFrom : Nat → Memory → Bool
  | _, [] => true
  | lo, c :: m => decide (lo ≤ c.1) && decide (c.1 < Config.memSize) && decide (c.2 ≠ Config.unlistedByte)
      && Memory.wfFrom (c.1 + 1) m

/-- The canonical form of a memory. -/
def Memory.wf (m : Memory) : Bool := Memory.wfFrom 0 m

/-! ## One write to each part of the state -/

/-- `x[i]` (rules R7 and R20). No register is hard-wired, R0 included (rule R21). -/
def readReg (i : RegIdx) (s : State) : Byte := s.regs[i.toNat]'i.isLt

/-- `x[i] <- v` (rule R7). -/
def writeReg (i : RegIdx) (v : Byte) (s : State) : State := { s with regs := s.regs.set i.toNat v i.isLt }

/-- `pc <- v` (rule R7). -/
def setPc (v : PcVal) (s : State) : State := { s with pc := v }

/-- `run <- v` (rule R7). -/
def setRun (v : RunState) (s : State) : State := { s with run := v }

/-- Replace one cell of the memory. -/
def setCell (a : Nat) (v : Byte) (s : State) : State := { s with mem := Memory.set s.mem a v }

/-- `emit Output(v)`: append to the output channel (rule R28). -/
def emitOutput (v : Byte) (s : State) : State := { s with out := s.out ++ [v] }

/-- `report D`: append to the diagnostic log and go on (rule R29). -/
def report (d : Diagnostic) (s : State) : State := { s with diag := s.diag ++ [d] }

/-- `fault F`: set the fault mark, and nothing else (rules R30 and R95). -/
def setFault (f : Fault) (s : State) : State := { s with fault := some f }

/-! ## The memory's contract -/

/-- `MemRead(addr, 1)` (rule R41): out of range, report and return 0. -/
def memRead (a : Nat) (s : State) : Byte × State :=
  if a < Config.memSize then (Memory.get s.mem a, s)
  else (Config.outOfRangeByte, report (.outOfBoundsAccess .read a) s)

/-- `MemWrite(addr, 1, v)` (rule R42): out of range, report and change no cell. -/
def memWrite (a : Nat) (v : Byte) (s : State) : State :=
  if a < Config.memSize then setCell a v s
  else report (.outOfBoundsAccess .write a) s

/-- The code of a diagnostic record (rule R205). -/
def Diagnostic.code : Diagnostic → Nat
  | .outOfBoundsAccess .read _ => 1
  | .outOfBoundsAccess .write _ => 2
  | .decodeFailure _ _ .malformedWord => 3
  | .decodeFailure _ _ .unrecognizedOpcode => 4
  | .malformedOperandDigit => 5

/-! ## Entering and leaving Halted -/

/-- `raise DecodeFailure(p, word, sub)` (rule R202): report, then halt; `pc`, the registers, the memory and the
output channel stay. It is the only entry an error makes (rule R207). -/
def raiseDecodeFailure (p : PcVal) (word : Word) (sub : Subcause) (s : State) : State :=
  setRun .halted (report (.decodeFailure p word sub) s)

/-- The controller's `halt()` (rule R88). -/
def haltEngine (s : State) : State := setRun .halted s

/-- The controller's `start()`: the only way back from Halted; it leaves `pc` alone (rules R88 and R208;
UNVERIFIED, the spec's decision D7, log 25). -/
def startEngine (s : State) : State := setRun .running s

/-! ## The end of an instruction -/

/-- What an instruction's execution answers to the engine (rule R82). -/
inductive Completion where
  | next
  | jump (target : Byte)
  | stop
  | fault (f : Fault)
  deriving DecidableEq, Repr

/-- Two past an address, as a value of `pc` (rule R83). The sum is formed without wrap; for the addresses an
instruction can execute from it fits `pc` (rule R94). DESIGN CHOICE (log 4): a sum above 0x1FF, which no step
reaches, keeps its low nine bits. -/
def advance (a : Nat) : PcVal := BitVec.ofNat 9 (a + Config.pcStep)

/-- The engine's part after the execution (rules R82, R83, R84 and R95): `pc` goes two past the instruction or
two past a taken jump's target; HALT halts with `pc` unchanged; a fault sets the mark and nothing else. -/
def retire (c : Completion) (s : State) : State :=
  match c with
  | .next => setPc (advance s.pc.toNat) s
  | .jump target => setPc (advance target.toNat) s
  | .stop => setRun .halted s
  | .fault f => setFault f s

/-! ## Fetch -/

/-- The two bytes at `pc` and `pc + 1`, read in that order, `pc + 1` without wrap (rules R47 and R60). -/
def fetch (s : State) : (Byte × Byte) × State :=
  let first := memRead s.pc.toNat s
  let second := memRead (s.pc.toNat + 1) first.2
  ((first.1, second.1), second.2)

/-- Where the step of this state can fetch a stored word whole: at `pc`, or at the load offset when `pc` or
`pc + 1` lies outside the memory. -/
def fetchablePc (s : State) : PcVal :=
  if s.pc.toNat + 1 < Config.memSize then s.pc else BitVec.ofNat 9 Config.loadOffset

end Sys2Proof.Machine
end

