-- ==== Sys2Proof/Machine/Operands.lean ====
section
/-! DEFINITION. The operand forms (30_encoding.md rules R62 to R65): a register by its index, and the three
readings of the 8-bit field `xy`. No operand is relative to `pc` and none is sign-extended (rule R64). No
instruction forms an address from a register (20_memory.md rule R44). -/

namespace Sys2Proof.Machine

/-- `xy` as data: the literal of LOADI (rule R64). -/
def literalOperand (xy : Byte) : Byte := xy

/-- `xy` as a memory address: the direct address of LOAD and STORE (rules R45 and R64). -/
def addressOperand (xy : Byte) : Nat := xy.toNat

/-- `xy` as the absolute target of a jump (rule R64). -/
def targetOperand (xy : Byte) : Byte := xy

/-- The shift count of ROT, 0 to 15 (rule R65). -/
def shiftOperand (n : Nibble) : Nat := n.toNat

/-- The implicit comparand of the conditional jumps, R0 (rule R21). -/
def comparand (s : State) : Byte := readReg 0 s

end Sys2Proof.Machine
end

