-- ==== Sys2Proof/Machine/Flags.lean ====
section
/-! DEFINITION. The block has no status flags or condition codes (10_state.md rule R32): ADD's overflow and
ADDF's saturation leave none, and the jumps compare a register with R0 directly. What stands here is what other
machines would keep in flags: the jumps' conditions and the test of ADD's sum. -/

namespace Sys2Proof.Machine

/-- The condition of JMPEQ: equality of two bytes (44_control_transfer.md rule R170). -/
def equalsComparand (r : RegIdx) (s : State) : Bool := decide (readReg r s = comparand s)

/-- The condition of JMPGT: unsigned comparison of two bytes (rule R172; UNVERIFIED, the spec's decision D11,
log 29). -/
def exceedsComparand (r : RegIdx) (s : State) : Bool := decide ((readReg r s).toNat > (comparand s).toNat)

/-- The exact unsigned sum of two bytes, 0 to 510 (42_arithmetic.md rule R120). -/
def addSum (x y : Byte) : Nat := x.toNat + y.toNat

/-- Whether an 8-bit register can hold the sum (rule R120). -/
def sumFits (sum : Nat) : Bool := decide (sum ≤ 255)

end Sys2Proof.Machine
end

