-- ==== Sys2Proof/Machine/FloatAdd.lean ====
section
/-! DEFINITION. The packed floating-point adder (42_arithmetic.md rules R121 to R128 and R130): the function of
rule R130, which ADDF uses, and beside it the source's own wording with its loops and its underflow clamp. -/

namespace Sys2Proof.Machine

/-- The three fields of a packed float (rule R121). The byte has no numeric value beyond them. -/
structure FloatFields where
  sign : Bool
  exp : Nat
  man : Nat
  deriving DecidableEq, Repr

/-- Sign bit 7, exponent bits 6 to 4, mantissa bits 3 to 0 (rule R121). -/
def unpackFloat (a : Byte) : FloatFields where
  sign := a.getLsbD 7
  exp := (a.extractLsb' 4 3).toNat
  man := (a.extractLsb' 0 4).toNat

/-- The aligned mantissas and the common exponent: the operand of the smaller exponent is shifted right by the
difference, and what is shifted out is lost (rule R122). -/
def alignMantissas (x y : FloatFields) : Nat × Nat × Nat :=
  if x.exp < y.exp then (x.man >>> (y.exp - x.exp), y.man, y.exp)
  else if y.exp < x.exp then (x.man, y.man >>> (x.exp - y.exp), x.exp)
  else (x.man, y.man, x.exp)

/-- Sign and mantissa of the sum of aligned operands: the sum for equal signs (rule R123); the absolute
difference with the sign of the larger aligned mantissa otherwise, a tie keeping the first sign (rule R124;
UNVERIFIED, the spec's decision D10, log 28). -/
def combineMantissas (s1 : Bool) (m1 : Nat) (s2 : Bool) (m2 : Nat) : Bool × Nat :=
  if s1 = s2 then (s1, m1 + m2)
  else (if m2 > m1 then s2 else s1, if m2 > m1 then m2 - m1 else m1 - m2)

/-- Mantissa and exponent with a mantissa above 15 shifted once; the bit shifted out is lost (rule R125). -/
def normaliseOnce (m e : Nat) : Nat × Nat := if m > 15 then (m >>> 1, e + 1) else (m, e)

/-- An exponent of 7 or more becomes mantissa 15, exponent 7 (rule R126). -/
def saturate (m e : Nat) : Nat × Nat := if e ≥ 7 then (15, 7) else (m, e)

/-- The byte of a sign, a mantissa and an exponent (rule R128). -/
def packFloat (sign : Bool) (m e : Nat) : Byte :=
  BitVec.ofNat 8 ((sign.toNat <<< 7) ||| (e <<< 4) ||| (m &&& 0xF))

/-- `floatAdd` of rule R130. The underflow clamp of rule R127 cannot be reached and is left out, as that rule
allows; `floatAddAsWritten` keeps it. -/
def floatAdd (a b : Byte) : Byte :=
  let x := unpackFloat a
  let y := unpackFloat b
  let aligned := alignMantissas x y
  let sum := combineMantissas x.sign aligned.1 y.sign aligned.2.1
  let normal := normaliseOnce sum.2 aligned.2.2
  let final := saturate normal.1 normal.2
  packFloat sum.1 final.1 final.2

/-! ## The source's wording -/

/-- "right-shifting the smaller-exponent operand's mantissa once per unit of exponent difference, incrementing
that exponent to match" (rule R122): one operand against the other's exponent, with fuel for the rounds. -/
def raiseExponent : Nat → Int → Nat × Int → Nat × Int
  | 0, _, me => me
  | fuel + 1, target, (m, e) => if e < target then raiseExponent fuel target (m >>> 1, e + 1) else (m, e)

/-- "while result mantissa > 15, shift right by 1 and increment exponent (repeat)" (rule R125), with fuel for
the rounds. -/
def normaliseLoop : Nat → Nat × Int → Nat × Int
  | 0, me => me
  | fuel + 1, (m, e) => if m > 15 then normaliseLoop fuel (m >>> 1, e + 1) else (m, e)

/-- The adder step by step, with the loops of rules R122 and R125, an exponent that may be negative and the
underflow clamp of rule R127. Eight rounds are more than any loop takes. -/
def floatAddAsWritten (a b : Byte) : Byte :=
  let x := unpackFloat a
  let y := unpackFloat b
  let xRaised := raiseExponent 8 y.exp (x.man, x.exp)
  let yRaised := raiseExponent 8 x.exp (y.man, y.exp)
  let sum := combineMantissas x.sign xRaised.1 y.sign yRaised.1
  let normal := normaliseLoop 8 (sum.2, xRaised.2)
  if normal.2 ≥ 7 then packFloat sum.1 15 7
  else if normal.2 < 0 then packFloat false 0 0
  else packFloat sum.1 normal.1 normal.2.toNat

end Sys2Proof.Machine
end

