-- ==== Sys2Proof/Machine/Arithmetic.lean ====
section
/-! DEFINITION. ADD and ADDF (42_arithmetic.md rules R120 and R129). -/

namespace Sys2Proof.Machine

/-- ADD (rule R120): the exact unsigned sum if a register can hold it; otherwise the fault mark and nothing else
(rule R95; UNVERIFIED, the spec's decision D1, log 20). No step follows a state with the mark (rule R81). -/
def execAdd (r a b : RegIdx) (s : State) : Host.Outcome State Fault Refusal :=
  let sum := addSum (readReg a s) (readReg b s)
  if sumFits sum then .next (retire .next (writeReg r (BitVec.ofNat 8 sum) s))
  else .next (retire (.fault (.addOverflow s.pc sum)) s)

/-- ADDF (rule R129): the register of `d2` is the first operand. -/
def execAddf (r a b : RegIdx) (s : State) : Host.Outcome State Fault Refusal :=
  .next (retire .next (writeReg r (floatAdd (readReg a s) (readReg b s)) s))

end Sys2Proof.Machine
end

