-- ==== Sys2Proof/Machine/Control.lean ====
section
/-! DEFINITION. JMPEQ, HALT, JMPGT and the three invalid opcodes (44_control_transfer.md rules R170 to R173). -/

namespace Sys2Proof.Machine

/-- JMPEQ (rule R170): a taken jump lands two past its target (rule R83). -/
def execJmpeq (r : RegIdx) (xy : Byte) (s : State) : Host.Outcome State Fault Refusal :=
  if equalsComparand r s then .next (retire (.jump (targetOperand xy)) s) else .next (retire .next s)

/-- HALT (rule R171): no advance and no diagnostic. -/
def execHalt (s : State) : Host.Outcome State Fault Refusal :=
  .next (retire .stop s)

/-- JMPGT (rule R172): as JMPEQ, the condition being unsigned greater. -/
def execJmpgt (r : RegIdx) (xy : Byte) (s : State) : Host.Outcome State Fault Refusal :=
  if exceedsComparand r s then .next (retire (.jump (targetOperand xy)) s) else .next (retire .next s)

/-- Opcode 0 (rule R173): decode failure, subcause MalformedWord (rule R61). -/
def execIllegal0 (u : BitVec 12) (s : State) : Host.Outcome State Fault Refusal :=
  .next (raiseDecodeFailure s.pc (encode (.illegal0 u)) .malformedWord s)

/-- Opcode E (rule R173): decode failure, subcause UnrecognizedOpcode. -/
def execIllegalE (u : BitVec 12) (s : State) : Host.Outcome State Fault Refusal :=
  .next (raiseDecodeFailure s.pc (encode (.illegalE u)) .unrecognizedOpcode s)

/-- Opcode F (rule R173): decode failure, subcause UnrecognizedOpcode. -/
def execIllegalF (u : BitVec 12) (s : State) : Host.Outcome State Fault Refusal :=
  .next (raiseDecodeFailure s.pc (encode (.illegalF u)) .unrecognizedOpcode s)

end Sys2Proof.Machine
end

