-- ==== Sys2Proof/Machine/DataMovement.lean ====
section
/-! DEFINITION. LOADI, LOAD, STORE, MOVE (41_data_movement.md rules R100 to R103). -/

namespace Sys2Proof.Machine

/-- LOADI (rule R100): the literal is data, not dereferenced. -/
def execLoadi (r : RegIdx) (xy : Byte) (s : State) : Host.Outcome State Fault Refusal :=
  .next (retire .next (writeReg r (literalOperand xy) s))

/-- LOAD (rule R101): direct addressing, one byte. -/
def execLoad (r : RegIdx) (xy : Byte) (s : State) : Host.Outcome State Fault Refusal :=
  let got := memRead (addressOperand xy) s
  .next (retire .next (writeReg r got.1 got.2))

/-- STORE's effect before the engine advances `pc`: the write, then the output event if the cell is the output
cell (rules R102 and R43). -/
def storeByte (a : Nat) (v : Byte) (s : State) : State :=
  if a = Config.outputCell then emitOutput v (memWrite a v s) else memWrite a v s

/-- STORE (rule R102). -/
def execStore (r : RegIdx) (xy : Byte) (s : State) : Host.Outcome State Fault Refusal :=
  .next (retire .next (storeByte (addressOperand xy) (readReg r s) s))

/-- MOVE (rule R103): the direction is `R[t] <- R[s]`. -/
def execMove (src dst : RegIdx) (s : State) : Host.Outcome State Fault Refusal :=
  .next (retire .next (writeReg dst (readReg src s) s))

end Sys2Proof.Machine
end

