-- ==== Sys2Proof/Machine/Logic.lean ====
section
/-! DEFINITION. OR, AND, XOR, ROT (43_logic_shift.md rules R150 to R153). -/

namespace Sys2Proof.Machine

/-- OR (rule R150). -/
def execOr (r a b : RegIdx) (s : State) : Host.Outcome State Fault Refusal :=
  .next (retire .next (writeReg r (readReg a s ||| readReg b s) s))

/-- AND (rule R151). -/
def execAnd (r a b : RegIdx) (s : State) : Host.Outcome State Fault Refusal :=
  .next (retire .next (writeReg r (readReg a s &&& readReg b s) s))

/-- XOR (rule R152). -/
def execXor (r a b : RegIdx) (s : State) : Host.Outcome State Fault Refusal :=
  .next (retire .next (writeReg r (readReg a s ^^^ readReg b s) s))

/-- ROT (rule R153): despite the name, a logical right shift with zero fill. -/
def execRot (r : RegIdx) (n : Nibble) (s : State) : Host.Outcome State Fault Refusal :=
  .next (retire .next (writeReg r (readReg r s >>> shiftOperand n) s))

end Sys2Proof.Machine
end

