-- ==== Sys2Proof/Machine/Dispatch.lean ====
section
/-! DEFINITION. One arm per instruction (30_encoding.md rule R67). -/

namespace Sys2Proof.Machine

/-- What an instruction does to a state (the execution of 40_engine_cycle.md rule R82 with its `pc` update). -/
def exec (i : Instr) (s : State) : Host.Outcome State Fault Refusal :=
  match i with
  | .loadi r xy => Sys2Proof.Machine.execLoadi r xy s
  | .load r xy => Sys2Proof.Machine.execLoad r xy s
  | .store r xy => Sys2Proof.Machine.execStore r xy s
  | .move src dst => Sys2Proof.Machine.execMove src dst s
  | .add r a b => Sys2Proof.Machine.execAdd r a b s
  | .addf r a b => Sys2Proof.Machine.execAddf r a b s
  | .or r a b => Sys2Proof.Machine.execOr r a b s
  | .and r a b => Sys2Proof.Machine.execAnd r a b s
  | .xor r a b => Sys2Proof.Machine.execXor r a b s
  | .rot r n => Sys2Proof.Machine.execRot r n s
  | .jmpeq r xy => Sys2Proof.Machine.execJmpeq r xy s
  | .halt => Sys2Proof.Machine.execHalt s
  | .jmpgt r xy => Sys2Proof.Machine.execJmpgt r xy s
  | .illegal0 u => Sys2Proof.Machine.execIllegal0 u s
  | .illegalE u => Sys2Proof.Machine.execIllegalE u s
  | .illegalF u => Sys2Proof.Machine.execIllegalF u s

end Sys2Proof.Machine
end

