-- ==== Sys2Proof/Machine/Step.lean ====
section
/-! DEFINITION. One `fetchAndExecute()` (40_engine_cycle.md rules R80 to R87), and the state whose next step
runs a given word. -/

namespace Sys2Proof.Machine

/-- One step (rule R82). After a fault mark no step exists (rule R81): the model stops with the mark. A Halted
engine's step changes nothing (rule R81). Otherwise: fetch, decode, execute. DESIGN CHOICE (log 3): the mark
goes before Halted. -/
def step (s : State) : Host.Outcome State Fault Refusal :=
  match s.fault with
  | some f => .fault f
  | none =>
    match s.run with
    | .halted => .next s
    | .running => exec (decodeBytes (fetch s).1.1 (fetch s).1.2) (fetch s).2

/-- The state whose next step runs the instruction of the word `w`, numbered as spec/opcode_table.json numbers
it: the two bytes stored where the step fetches, high byte first (rule R46), and the step enabled (rule R81).
DESIGN CHOICE (log 6). -/
def State.withFetchWord (s : State) (nbits w : Nat) : State :=
  let p := fetchablePc s
  let word := tableWord nbits w
  { setCell (p.toNat + 1) (lowByte word) (setCell p.toNat (highByte word) (setPc p s)) with
    run := .running, fault := none }

end Sys2Proof.Machine
end

