-- ==== Sys2Proof/Machine/HexText.lean ====
section
/-! DEFINITION. The source's own wording of decoding, over hex characters: two bytes rendered as text, the
word's length check, and the dual-base parse of an operand digit (30_encoding.md rules R60, R61, R63 and R66);
and the hex tokens of a program (rule R71). -/

namespace Sys2Proof.Machine

/-- The value of a decimal digit character. -/
def decimalValue (c : Char) : Option Nat :=
  if 48 ≤ c.toNat ∧ c.toNat ≤ 57 then some (c.toNat - 48) else none

/-- The value of a hex digit character, of either case (rule R90's `[0-9A-Fa-f]`). -/
def hexValue (c : Char) : Option Nat :=
  if 48 ≤ c.toNat ∧ c.toNat ≤ 57 then some (c.toNat - 48)
  else if 65 ≤ c.toNat ∧ c.toNat ≤ 70 then some (c.toNat - 55)
  else if 97 ≤ c.toNat ∧ c.toNat ≤ 102 then some (c.toNat - 87)
  else none

/-- "parse ... as a decimal digit first; if that is not a valid decimal digit, parse as a hex nibble"
(rule R63). -/
def operandDigit (c : Char) : Option Nat :=
  match decimalValue c with
  | some n => some n
  | none => hexValue c

/-- The character of a nibble. DESIGN CHOICE (log 11): capitals, as the spec writes words. -/
def hexChar (n : Nibble) : Char :=
  if n.toNat < 10 then Char.ofNat (48 + n.toNat) else Char.ofNat (55 + n.toNat)

/-- A byte's hex rendering with its leading zero dropped (rule R61). -/
def renderShort (b : Byte) : List Char :=
  if b.toNat < 16 then [hexChar (b.extractLsb' 0 4)]
  else [hexChar (b.extractLsb' 4 4), hexChar (b.extractLsb' 0 4)]

/-- A byte's hex rendering padded to two digits (rule R61). -/
def renderPadded (b : Byte) : List Char := [hexChar (b.extractLsb' 4 4), hexChar (b.extractLsb' 0 4)]

/-- The text of the word of two fetched bytes: only the second byte is padded (rule R61). -/
def wordText (b0 b1 : Byte) : List Char := renderShort b0 ++ renderPadded b1

/-- An instruction built from its opcode value and the values of its operand digits, by the table of
rule R67. -/
def instrOfDigits (op r s t : Nat) : Except Subcause Instr :=
  let reg (n : Nat) : RegIdx := BitVec.ofNat 4 n
  let xy : Byte := BitVec.ofNat 8 (s * 16 + t)
  match op with
  | 0x1 => .ok (.loadi (reg r) xy)
  | 0x2 => .ok (.load (reg r) xy)
  | 0x3 => .ok (.store (reg r) xy)
  | 0x4 => .ok (.move (reg s) (reg t))
  | 0x5 => .ok (.add (reg r) (reg s) (reg t))
  | 0x6 => .ok (.addf (reg r) (reg s) (reg t))
  | 0x7 => .ok (.or (reg r) (reg s) (reg t))
  | 0x8 => .ok (.and (reg r) (reg s) (reg t))
  | 0x9 => .ok (.xor (reg r) (reg s) (reg t))
  | 0xA => .ok (.rot (reg r) (BitVec.ofNat 4 t))
  | 0xB => .ok (.jmpeq (reg r) xy)
  | 0xC => .ok .halt
  | 0xD => .ok (.jmpgt (reg r) xy)
  | _ => .error .unrecognizedOpcode

/-- The source's decoder over the word's text: fewer than four characters is an invalid instruction (rule R61),
the first character is the opcode, the others are operand digits (rule R63). A digit that parses in no base
escalates to a decode failure, which never happens (rules R66 and R203; DESIGN CHOICE, log 7). -/
def decodeText (text : List Char) : Except Subcause Instr :=
  match text with
  | [c0, c1, c2, c3] =>
    match hexValue c0, operandDigit c1, operandDigit c2, operandDigit c3 with
    | some op, some r, some s, some t => instrOfDigits op r s t
    | _, _, _, _ => .error .malformedWord
  | _ => .error .malformedWord

/-- The two bytes of a token of exactly four hex characters (rules R71 and R90). -/
def tokenBytes (token : List Char) : Option (Byte × Byte) :=
  match token with
  | [c0, c1, c2, c3] =>
    match hexValue c0, hexValue c1, hexValue c2, hexValue c3 with
    | some v0, some v1, some v2, some v3 => some (BitVec.ofNat 8 (v0 * 16 + v1), BitVec.ofNat 8 (v2 * 16 + v3))
    | _, _, _, _ => none
  | _ => none

/-- The bytes of every token, or none if one token is not four hex characters (rule R90). -/
def programBytes : List (List Char) → Option (List (Byte × Byte))
  | [] => some []
  | token :: rest =>
    match tokenBytes token, programBytes rest with
    | some bytes, some more => some (bytes :: more)
    | _, _ => none

/-- Space, tab, line feed, vertical tab, form feed and carriage return. DESIGN CHOICE (log 9): the spec says
"whitespace-separated" and names no characters. -/
def isSpace (c : Char) : Bool := c.toNat == 32 || (decide (9 ≤ c.toNat) && decide (c.toNat ≤ 13))

/-- Split a text at whitespace; `word` is the token being read. -/
def splitTokens : List Char → List Char → List (List Char)
  | word, [] => if word.isEmpty then [] else [word]
  | word, c :: rest =>
    if isSpace c then
      if word.isEmpty then splitTokens [] rest else word :: splitTokens [] rest
    else splitTokens (word ++ [c]) rest

/-- The whitespace-separated tokens of a program text (rule R71). -/
def tokensOfText (text : List Char) : List (List Char) := splitTokens [] text

end Sys2Proof.Machine
end

