-- ==== Sys2Proof/Machine/Controller.lean ====
section
/-! DEFINITION. The controller interface (40_engine_cycle.md rules R88 to R92; 20_memory.md rule R57;
70_reset_and_hazards.md rule R225). Every call acts between steps. -/

namespace Sys2Proof.Machine

/-- The controller's operations (rule R89). Arguments are plain numbers and characters, checked by the call. -/
inductive Call where
  | loadProgram (tokens : List (List Char))
  | fetchAndExecute
  | running
  | halt
  | start
  | readReg (i : Nat)
  | writeReg (i v : Nat)
  | readMem (a : Nat)
  | writeMem (a v : Nat)
  | readPC
  | writePC (v : Nat)
  | readOut
  | readDiag
  deriving DecidableEq, Repr

/-- What a call gives back to the controller. -/
inductive Reply where
  | done
  | flag (b : Bool)
  | byte (v : Byte)
  | address (v : PcVal)
  | output (vs : List Byte)
  | diagnostics (ds : List Diagnostic)
  deriving DecidableEq, Repr

/-- The next state and the reply, or a stop. -/
abbrev CallOutcome := Host.Outcome (State × Reply) Fault Refusal

/-- Write the words of a program from an address up, each high byte first, through `MemWrite` (rule R90). -/
def loadWords : Nat → List (Byte × Byte) → State → State
  | _, [], s => s
  | a, (high, low) :: rest, s => loadWords (a + 2) rest (memWrite (a + 1) low (memWrite a high s))

/-- `loadProgram(tokens)` (rule R90; UNVERIFIED, the spec's decision D14, log 31): a token that is not four hex
characters makes the whole call refused. -/
def loadProgram (tokens : List (List Char)) (s : State) : CallOutcome :=
  match programBytes tokens with
  | none => .refused .badToken
  | some words => .next (setPc (BitVec.ofNat 9 Config.loadOffset) (loadWords Config.loadOffset words s), .done)

/-- `fetchAndExecute()`: one step (rule R80). -/
def fetchAndExecute (s : State) : CallOutcome :=
  match step s with
  | .next t => .next (t, .done)
  | .fault f => .fault f
  | .refused r => .refused r

/-- `running()` (rule R91). -/
def isRunning (s : State) : Bool := decide (s.run = .running)

/-- `readReg(i)` (rule R92). -/
def callReadReg (i : Nat) (s : State) : CallOutcome :=
  if i < 16 then .next (s, .byte (readReg (BitVec.ofNat 4 i) s)) else .refused .badRegister

/-- `writeReg(i, v)` (rule R92). -/
def callWriteReg (i v : Nat) (s : State) : CallOutcome :=
  if i < 16 then
    if v < 256 then .next (writeReg (BitVec.ofNat 4 i) (BitVec.ofNat 8 v) s, .done) else .refused .badByte
  else .refused .badRegister

/-- `readMem(a)` is `MemRead(a, 1)` (rule R92). -/
def callReadMem (a : Nat) (s : State) : CallOutcome :=
  .next ((memRead a s).2, .byte (memRead a s).1)

/-- `writeMem(a, v)` is `MemWrite(a, 1, v)` with no output event (rules R92 and R57; UNVERIFIED, the spec's
decision D9, log 27). -/
def callWriteMem (a v : Nat) (s : State) : CallOutcome :=
  if v < 256 then .next (memWrite a (BitVec.ofNat 8 v) s, .done) else .refused .badByte

/-- `writePC(v)` (rule R92). -/
def callWritePC (v : Nat) (s : State) : CallOutcome :=
  if v < 512 then .next (setPc (BitVec.ofNat 9 v) s, .done) else .refused .badPc

/-- One controller operation (rule R89). UNVERIFIED: the range checks are the spec's decision D17 (log 33).
DESIGN CHOICE (log 8): a fault mark hinders no call but `fetchAndExecute`, and no call clears it. -/
def call (c : Call) (s : State) : CallOutcome :=
  match c with
  | .loadProgram tokens => loadProgram tokens s
  | .fetchAndExecute => fetchAndExecute s
  | .running => .next (s, .flag (isRunning s))
  | .halt => .next (haltEngine s, .done)
  | .start => .next (startEngine s, .done)
  | .readReg i => callReadReg i s
  | .writeReg i v => callWriteReg i v s
  | .readMem a => callReadMem a s
  | .writeMem a v => callWriteMem a v s
  | .readPC => .next (s, .address s.pc)
  | .writePC v => callWritePC v s
  | .readOut => .next (s, .output s.out)
  | .readDiag => .next (s, .diagnostics s.diag)

/-- A sequence of calls, stopping at the first that has no next state. -/
def calls : List Call → State → Host.Outcome State Fault Refusal
  | [], s => .next s
  | c :: rest, s =>
    match call c s with
    | .next (t, _) => calls rest t
    | .fault f => .fault f
    | .refused r => .refused r

/-- `fetchAndExecute()` repeated while `running()` is true, at most `fuel` times (rule R225). -/
def runProgram : Nat → State → Host.Outcome State Fault Refusal
  | 0, s => .next s
  | fuel + 1, s =>
    if isRunning s then
      match step s with
      | .next t => runProgram fuel t
      | .fault f => .fault f
      | .refused r => .refused r
    else .next s

/-- The boot of rule R225 up to the first step: construction, then `loadProgram`. The engine is Running at
construction, so `start()` is not needed (rule R223). -/
def boot (regReset : Vector Byte 16) (text : List Char) : Host.Outcome State Fault Refusal :=
  calls [.loadProgram (tokensOfText text)] (State.resetWith regReset)

end Sys2Proof.Machine
end

