-- ==== Sys2Proof/Safety.lean ====
section
/-! DEFINITION. What a claim about a run may rest on, and the words the statements use: the invariant of the
state, how a run ends (40_engine_cycle.md rule R93), and what an instruction leaves alone. -/

namespace Sys2Proof.Machine

/-- The state is not invalidated: it carries no fault mark (10_state.md rule R30). A claim about a run means
something only while this holds, since a mark "refutes any claim" (rule R93). -/
def State.Valid (s : State) : Prop := s.fault = none

/-- A run's proper end: Halted and not invalidated (rule R93). -/
def State.Final (s : State) : Prop := s.run = .halted ∧ s.fault = none

/-- A step is enabled (rule R81). -/
def State.Enabled (s : State) : Prop := s.run = .running ∧ s.fault = none

/-- The memory has its canonical form. -/
def State.MemoryCanonical (s : State) : Prop := Memory.wf s.mem = true

/-- The program counter lies where a run from inside the memory can put it (rule R94). -/
def State.PcBounded (s : State) : Prop := s.pc.toNat ≤ 0x101

/-- `k` steps in a row reach `t`, and no state on the way carries a fault mark: a run that a claim may speak of. -/
inductive SafeRun : Nat → State → State → Prop
  | refl (s : State) (valid : s.Valid) : SafeRun 0 s s
  | more (k : Nat) (s t u : State) (valid : s.Valid) (first : step s = .next t) (rest : SafeRun k t u) :
      SafeRun (k + 1) s u

/-- The instruction of the two bytes a step of this state fetches. -/
def fetchedInstr (s : State) : Instr := decodeBytes (fetch s).1.1 (fetch s).1.2

/-- A character is the hex digit of a value, in capitals or not: the reading of rule R90's `hex(...)` that the
statements use, independent of the token parser. -/
def HexDigit (c : Char) (v : Nat) : Prop :=
  ['0', '1', '2', '3', '4', '5', '6', '7', '8', '9', 'A', 'B', 'C', 'D', 'E', 'F'][v]? = some c ∨
  ['0', '1', '2', '3', '4', '5', '6', '7', '8', '9', 'a', 'b', 'c', 'd', 'e', 'f'][v]? = some c

/-- A token is four hex digits (rules R71 and R90). -/
def HexToken (token : List Char) : Prop :=
  ∃ c0 c1 c2 c3 : Char, ∃ v0 v1 v2 v3 : Nat, token = [c0, c1, c2, c3] ∧
    HexDigit c0 v0 ∧ HexDigit c1 v1 ∧ HexDigit c2 v2 ∧ HexDigit c3 v3

/-! ## Frames -/

/-- Every register reads as before. -/
def RegsKept (s t : State) : Prop := ∀ q : RegIdx, readReg q t = readReg q s

/-- Every register but one reads as before. -/
def RegsKeptBut (r : RegIdx) (s t : State) : Prop := ∀ q : RegIdx, q ≠ r → readReg q t = readReg q s

/-- Every address reads as before. -/
def MemoryKept (s t : State) : Prop := ∀ a : Nat, Memory.get t.mem a = Memory.get s.mem a

/-- Every address but one reads as before. -/
def MemoryKeptBut (x : Nat) (s t : State) : Prop := ∀ a : Nat, a ≠ x → Memory.get t.mem a = Memory.get s.mem a

/-- The output channel and the diagnostic log are as before. -/
def ChannelsKept (s t : State) : Prop := t.out = s.out ∧ t.diag = s.diag

/-- The run state and the fault mark are as before. -/
def ModeKept (s t : State) : Prop := t.run = s.run ∧ t.fault = s.fault

/-- `pc` is two past where it was (rule R83), wherever an instruction can be fetched from (rule R94). -/
def PcAdvanced (s t : State) : Prop := s.pc.toNat ≤ 0xFF → t.pc.toNat = s.pc.toNat + 2

/-- The result of an instruction that writes one register: the value, and everything else as it was but `pc`,
which is two past. -/
structure RegResult (r : RegIdx) (v : Byte) (s t : State) : Prop where
  value : readReg r t = v
  registers : RegsKeptBut r s t
  memory : MemoryKept s t
  channels : ChannelsKept s t
  mode : ModeKept s t
  pc : PcAdvanced s t

/-- Everything but `pc` is as it was. -/
structure OnlyPcMoved (s t : State) : Prop where
  registers : RegsKept s t
  memory : MemoryKept s t
  channels : ChannelsKept s t
  mode : ModeKept s t

/-- What a read of an address gives: the cell's byte, or 0x00 past the memory (20_memory.md rule R41). -/
def byteSeen (s : State) (a : Nat) : Byte := if a < 256 then Memory.get s.mem a else 0x00

/-- An instruction's register destination by the table of 10_state.md rule R23. -/
def destination : Instr → Option RegIdx
  | .loadi r _ => some r
  | .load r _ => some r
  | .store _ _ => none
  | .move _ t => some t
  | .add r _ _ => some r
  | .addf r _ _ => some r
  | .or r _ _ => some r
  | .and r _ _ => some r
  | .xor r _ _ => some r
  | .rot r _ => some r
  | .jmpeq _ _ => none
  | .halt => none
  | .jmpgt _ _ => none
  | .illegal0 _ => none
  | .illegalE _ => none
  | .illegalF _ => none

/-- Whether an instruction reads a register, by the table of rule R23; the jumps read R0 too (rule R21). -/
def readsReg : Instr → RegIdx → Bool
  | .loadi _ _, _ => false
  | .load _ _, _ => false
  | .store r _, q => q == r
  | .move s _, q => q == s
  | .add _ s t, q => q == s || q == t
  | .addf _ s t, q => q == s || q == t
  | .or _ s t, q => q == s || q == t
  | .and _ s t, q => q == s || q == t
  | .xor _ s t, q => q == s || q == t
  | .rot r _, q => q == r
  | .jmpeq r _, q => q == r || q == 0
  | .halt, _ => false
  | .jmpgt r _, q => q == r || q == 0
  | .illegal0 _, _ => false
  | .illegalE _, _ => false
  | .illegalF _, _ => false

end Sys2Proof.Machine
end

