-- ==== Sys2Proof/Certificates/Slice0/Obligations.lean ====
section
/-! DEFINITION. The statements about the model. Each docstring names the rules it formalises. Where a clause rests
on a decision of the spec about its source (92_eei_decisions.md) or on an inference the spec marks as derived, the
docstring says so and names the log entry or the rule. -/

open Sys2Proof Sys2Proof.Machine

/-! ## Encoding -/

/-- The words of a few instructions, written out nibble by nibble from rule R67's table, decode to them. -/
def Obligations.SampleWordsDecode : Prop :=
  decodeBytes 0x10 0xF1 = .loadi 0 0xF1 ∧ decodeBytes 0x21 0x1C = .load 1 0x1C ∧
  decodeBytes 0x30 0x00 = .store 0 0x00 ∧ decodeBytes 0x40 0x12 = .move 1 2 ∧
  decodeBytes 0x53 0x12 = .add 3 1 2 ∧ decodeBytes 0x63 0x12 = .addf 3 1 2 ∧
  decodeBytes 0x73 0x12 = .or 3 1 2 ∧ decodeBytes 0xA1 0x04 = .rot 1 4 ∧
  decodeBytes 0xB1 0x30 = .jmpeq 1 0x30 ∧ decodeBytes 0xC0 0x00 = .halt ∧
  decodeBytes 0xD4 0x1A = .jmpgt 4 0x1A ∧ decodeBytes 0x0A 0xBC = .illegal0 0xABC ∧
  decodeBytes 0xE1 0x23 = .illegalE 0x123 ∧ decodeBytes 0xF5 0xA5 = .illegalF 0x5A5

/-- Decoding an encoded instruction gives it back, for all sixteen rows of the table and every operand. -/
def Obligations.DecodeEncodeRoundTrip : Prop :=
  ∀ i : Instr, decodeWord (encode i) = i

/-- Encoding a decoded word gives the word back with its ignored nibbles written 0, as rule R72's canonical
encoder does. That `d1` of MOVE is ignored is the spec's decision D12 (log 30). -/
def Obligations.EncodeDecodeClearsIgnoredNibbles : Prop :=
  ∀ w : Word, encode (decodeWord w) =
    if d0 w = 0x4 then w &&& 0xF0FF
    else if d0 w = 0xA then w &&& 0xFF0F
    else if d0 w = 0xC then w &&& 0xF000
    else w

/-- Decoding is total and `d0` alone selects the row: every word is one of the 13 instructions exactly when its
first nibble is 1 to 13, and otherwise the decoder of rule R73 answers the subcause of the spec's decision D8
(log 26). -/
def Obligations.FirstNibbleSelectsInstruction : Prop :=
  ∀ b0 b1 : Byte,
    (decodeBytes b0 b1).opcode.toNat = b0.toNat / 16 ∧
    ((1 ≤ b0.toNat / 16 ∧ b0.toNat / 16 ≤ 13) →
      (decodeBytes b0 b1).wellFormed = true ∧ decode b0 b1 = .ok (decodeBytes b0 b1)) ∧
    (b0.toNat / 16 = 0 →
      (decodeBytes b0 b1).wellFormed = false ∧ decode b0 b1 = .error .malformedWord) ∧
    (14 ≤ b0.toNat / 16 →
      (decodeBytes b0 b1).wellFormed = false ∧ decode b0 b1 = .error .unrecognizedOpcode)

/-- The source's decoder over hex text, with its short rendering of the first byte and its dual-base digit parse,
is the bit-field decoder (the inferences of rules R61, R63 and R66). -/
def Obligations.TextDecoderEqualsBitDecoder : Prop :=
  ∀ b0 b1 : Byte, decodeText (wordText b0 b1) = decode b0 b1

/-! ## The step -/

/-- What a step reads of its instruction, and the state its execution starts from (rules R41 and R60): two bytes
from `pc` and `pc + 1` without wrap, 0x00 and a diagnostic where the address is out of range, and the word's four
nibbles. -/
def Obligations.FetchReadsTwoConsecutiveBytes : Prop :=
  ∀ s : State,
    (fetch s).1 = (byteSeen s s.pc.toNat, byteSeen s (s.pc.toNat + 1)) ∧
    (fetch s).2 = { s with diag := s.diag ++
      (([s.pc.toNat, s.pc.toNat + 1].filter fun a => decide (256 ≤ a)).map (.outOfBoundsAccess .read ·)) } ∧
    ∀ b0 b1 : Byte, (wordOf b0 b1).toNat = b0.toNat * 256 + b1.toNat ∧
      (d0 (wordOf b0 b1)).toNat = b0.toNat / 16 ∧ (d1 (wordOf b0 b1)).toNat = b0.toNat % 16 ∧
      (d2 (wordOf b0 b1)).toNat = b1.toNat / 16 ∧ (d3 (wordOf b0 b1)).toNat = b1.toNat % 16

/-- An enabled step runs the instruction its two bytes decode to, on the state after the fetch (rule R82). Inside
the memory the fetch changes nothing; at 0xFF the second byte is 0x00 and is reported; from 0x100 up the word is
0x0000 and both reads are reported (rule R176, an inference of the spec). -/
def Obligations.StepRunsDecodedInstruction : Prop :=
  ∀ s : State, s.run = .running → s.fault = none →
    (s.pc.toNat + 1 < 256 →
      step s = exec (decodeBytes (Memory.get s.mem s.pc.toNat) (Memory.get s.mem (s.pc.toNat + 1))) s) ∧
    (s.pc.toNat = 255 →
      step s = exec (decodeBytes (Memory.get s.mem 255) 0x00)
        { s with diag := s.diag ++ [.outOfBoundsAccess .read 256] }) ∧
    (256 ≤ s.pc.toNat →
      step s = exec (.illegal0 0x000)
        { s with diag := s.diag ++ [.outOfBoundsAccess .read s.pc.toNat,
          .outOfBoundsAccess .read (s.pc.toNat + 1)] })

/-- From `pc` at 0x100 or above an enabled step reports both reads and the decode failure of word 0x0000, halts,
and leaves `pc` and everything else (rules R94 and R176, inferences of the spec; the subcause is its decision D8,
log 26). -/
def Obligations.StepOutsideMemoryHalts : Prop :=
  ∀ s : State, s.run = .running → s.fault = none → 256 ≤ s.pc.toNat →
    ∃ t, step s = .next t ∧ t.run = .halted ∧ t.pc = s.pc ∧
      t.diag = s.diag ++ [.outOfBoundsAccess .read s.pc.toNat, .outOfBoundsAccess .read (s.pc.toNat + 1),
        .decodeFailure s.pc 0x0000 .malformedWord] ∧
      RegsKept s t ∧ MemoryKept s t ∧ t.out = s.out ∧ t.fault = s.fault

/-- A step never refuses, and it stops exactly where the state carries a fault mark, with that mark. That the
step of a marked state faults, while the step of the overflowing ADD itself answers a next state, is log 2
(DEDUCED from rules R81 and R95, which follow the spec's decision D1, log 20); that the mark goes before Halted is
the model's choice (log 3). -/
def Obligations.StepStopsExactlyAtFaultMark : Prop :=
  ∀ s : State, (∀ f : Fault, step s = .fault f ↔ s.fault = some f) ∧ (∀ r : Refusal, step s ≠ .refused r) ∧
    (s.fault = none → ∃ t, step s = .next t)

/-! ## The instructions -/

/-- LOADI, whole (rule R100). -/
def Obligations.LoadiWritesLiteral : Prop :=
  ∀ (r : RegIdx) (xy : Byte),
    decodeWord (0x1#4 ++ (r ++ xy : BitVec 12)) = .loadi r xy ∧
    ∀ s : State, ∃ t, exec (.loadi r xy) s = .next t ∧ RegResult r xy s t

/-- LOAD, whole (rule R101). The address is the field `xy` itself. -/
def Obligations.LoadReadsMemory : Prop :=
  ∀ (r : RegIdx) (xy : Byte),
    decodeWord (0x2#4 ++ (r ++ xy : BitVec 12)) = .load r xy ∧
    ∀ s : State, ∃ t, exec (.load r xy) s = .next t ∧ RegResult r (Memory.get s.mem xy.toNat) s t

/-- STORE, whole (rule R102): the byte stored, the output event at cell 0x00 and nowhere else, and the frame. The
address is the one the meaning stores to. -/
def Obligations.StoreWritesMemoryAndOutput : Prop :=
  ∀ (r : RegIdx) (xy : Byte),
    decodeWord (0x3#4 ++ (r ++ xy : BitVec 12)) = .store r xy ∧ addressOperand xy = xy.toNat ∧
    ∀ s : State, ∃ t, exec (.store r xy) s = .next t ∧
      Memory.get t.mem (addressOperand xy) = readReg r s ∧ MemoryKeptBut (addressOperand xy) s t ∧
      t.out = (if xy.toNat = 0 then s.out ++ [readReg r s] else s.out) ∧ t.diag = s.diag ∧
      RegsKept s t ∧ ModeKept s t ∧ PcAdvanced s t

/-- MOVE (rule R103): the register of `d3` gets the value of the register of `d2`. That `d1` is ignored is the
spec's decision D12 (log 30). -/
def Obligations.MoveCopiesRegister : Prop :=
  ∀ (u : Nibble) (src dst : RegIdx),
    decodeWord (0x4#4 ++ (u ++ src ++ dst : BitVec 12)) = .move src dst ∧
    ∀ s : State, ∃ t, exec (.move src dst) s = .next t ∧ RegResult dst (readReg src s) s t

/-- ADD where the unsigned sum is at most 255 (rule R120's first branch; that a register has 8 bits is the spec's
decision D1, log 20). -/
def Obligations.AddWritesSumThatFits : Prop :=
  ∀ r a b : RegIdx,
    decodeWord (0x5#4 ++ (r ++ a ++ b : BitVec 12)) = .add r a b ∧
    ∀ s : State, (readReg a s).toNat + (readReg b s).toNat ≤ 255 →
      ∃ (t : State) (v : Byte), exec (.add r a b) s = .next t ∧
        v.toNat = (readReg a s).toNat + (readReg b s).toNat ∧ RegResult r v s t

/-- ADD where the unsigned sum is above 255: the fault mark with the instruction's `pc` and the exact sum, and
nothing else (the spec's decision D1, rule R95; log 2 and 20). -/
def Obligations.AddOverflowSetsMarkOnly : Prop :=
  ∀ (r a b : RegIdx) (s : State), 255 < (readReg a s).toNat + (readReg b s).toNat →
    ∃ t, exec (.add r a b) s = .next t ∧
      t.fault = some (.addOverflow s.pc ((readReg a s).toNat + (readReg b s).toNat)) ∧
      t.pc = s.pc ∧ t.run = s.run ∧ RegsKept s t ∧ MemoryKept s t ∧ ChannelsKept s t

/-- ADDF (rule R129): the destination gets `floatAdd` of the registers of `d2` and `d3`, in that order; what
`floatAdd` is, `FloatAddFollowsFieldArithmetic` says (with the spec's decision D10, log 28). -/
def Obligations.AddfWritesFloatSum : Prop :=
  ∀ r a b : RegIdx,
    decodeWord (0x6#4 ++ (r ++ a ++ b : BitVec 12)) = .addf r a b ∧
    ∀ s : State, ∃ t, exec (.addf r a b) s = .next t ∧ RegResult r (floatAdd (readReg a s) (readReg b s)) s t

/-- OR, AND and XOR, whole (rules R150, R151 and R152): every bit of the result from the same bits of the
operands. -/
def Obligations.LogicInstructionsCombineBits : Prop :=
  ∀ r a b : RegIdx,
    decodeWord (0x7#4 ++ (r ++ a ++ b : BitVec 12)) = .or r a b ∧
    decodeWord (0x8#4 ++ (r ++ a ++ b : BitVec 12)) = .and r a b ∧
    decodeWord (0x9#4 ++ (r ++ a ++ b : BitVec 12)) = .xor r a b ∧
    ∀ s : State,
      (∃ (t : State) (v : Byte), exec (.or r a b) s = .next t ∧ RegResult r v s t ∧
        ∀ k < 8, v.getLsbD k = ((readReg a s).getLsbD k || (readReg b s).getLsbD k)) ∧
      (∃ (t : State) (v : Byte), exec (.and r a b) s = .next t ∧ RegResult r v s t ∧
        ∀ k < 8, v.getLsbD k = ((readReg a s).getLsbD k && (readReg b s).getLsbD k)) ∧
      (∃ (t : State) (v : Byte), exec (.xor r a b) s = .next t ∧ RegResult r v s t ∧
        ∀ k < 8, v.getLsbD k = ((readReg a s).getLsbD k != (readReg b s).getLsbD k))

/-- ROT, whole (rule R153): a logical right shift by 0 to 15, zeros from bit 7, `d2` ignored. -/
def Obligations.RotShiftsRightLogically : Prop :=
  ∀ (r : RegIdx) (u n : Nibble),
    decodeWord (0xA#4 ++ (r ++ u ++ n : BitVec 12)) = .rot r n ∧
    ∀ s : State, ∃ (t : State) (v : Byte), exec (.rot r n) s = .next t ∧
      v.toNat = (readReg r s).toNat / 2 ^ n.toNat ∧ RegResult r v s t

/-- JMPEQ, whole (rule R170): taken exactly when the register equals R0, landing two past the target; only `pc`
moves. -/
def Obligations.JmpeqJumpsWhenEqualToR0 : Prop :=
  ∀ (r : RegIdx) (xy : Byte),
    decodeWord (0xB#4 ++ (r ++ xy : BitVec 12)) = .jmpeq r xy ∧
    ∀ s : State, ∃ t, exec (.jmpeq r xy) s = .next t ∧ OnlyPcMoved s t ∧
      (readReg r s = readReg 0 s → t.pc.toNat = xy.toNat + 2) ∧
      (readReg r s ≠ readReg 0 s → PcAdvanced s t)

/-- JMPGT (rule R172): taken exactly when the register is above R0, landing two past the target; only `pc` moves.
That the comparison is unsigned is the spec's decision D11 (log 29). -/
def Obligations.JmpgtJumpsWhenAboveR0 : Prop :=
  ∀ (r : RegIdx) (xy : Byte),
    decodeWord (0xD#4 ++ (r ++ xy : BitVec 12)) = .jmpgt r xy ∧
    ∀ s : State, ∃ t, exec (.jmpgt r xy) s = .next t ∧ OnlyPcMoved s t ∧
      ((readReg 0 s).toNat < (readReg r s).toNat → t.pc.toNat = xy.toNat + 2) ∧
      (¬ (readReg 0 s).toNat < (readReg r s).toNat → PcAdvanced s t)

/-- HALT (rule R171): the engine halts with `pc` at the HALT and nothing else changed, whatever the three operand
nibbles. The last clause, that started again with no fresh `pc` it halts there again, is a sentence the rule marks
as derived, and rests on `start()` leaving `pc`, the spec's decision D7 (log 25). -/
def Obligations.HaltStopsTheEngine : Prop :=
  (∀ u : BitVec 12, decodeWord (0xC#4 ++ u) = .halt) ∧
  (∀ s : State, ∃ t, exec .halt s = .next t ∧ t.run = .halted ∧ t.pc = s.pc ∧ t.fault = s.fault ∧
    RegsKept s t ∧ MemoryKept s t ∧ ChannelsKept s t) ∧
  (∀ s t : State, s.run = .running → s.fault = none → fetchedInstr s = .halt → step s = .next t →
    ∃ again, step (startEngine t) = .next again ∧ again.run = .halted ∧ again.pc = s.pc)

/-- Opcodes 0, E and F (rule R173): one decode-failure record with the word's `pc`, the whole word and the subcause,
then Halted; everything else, `pc` included, as it was. The record and its subcauses are the spec's decision D8
(log 26). -/
def Obligations.InvalidWordRaisesDecodeFailure : Prop :=
  ∀ u : BitVec 12,
    decodeWord (0x0#4 ++ u) = .illegal0 u ∧ decodeWord (0xE#4 ++ u) = .illegalE u ∧
    decodeWord (0xF#4 ++ u) = .illegalF u ∧
    ∀ s : State,
      (∃ t, exec (.illegal0 u) s = .next t ∧ t.run = .halted ∧ t.pc = s.pc ∧ t.fault = s.fault ∧
        t.diag = s.diag ++ [.decodeFailure s.pc (0x0#4 ++ u) .malformedWord] ∧ t.out = s.out ∧
        RegsKept s t ∧ MemoryKept s t) ∧
      (∃ t, exec (.illegalE u) s = .next t ∧ t.run = .halted ∧ t.pc = s.pc ∧ t.fault = s.fault ∧
        t.diag = s.diag ++ [.decodeFailure s.pc (0xE#4 ++ u) .unrecognizedOpcode] ∧ t.out = s.out ∧
        RegsKept s t ∧ MemoryKept s t) ∧
      (∃ t, exec (.illegalF u) s = .next t ∧ t.run = .halted ∧ t.pc = s.pc ∧ t.fault = s.fault ∧
        t.diag = s.diag ++ [.decodeFailure s.pc (0xF#4 ++ u) .unrecognizedOpcode] ∧ t.out = s.out ∧
        RegsKept s t ∧ MemoryKept s t)

/-! ## The packed float -/

/-- `floatAdd` (rule R130) in plain arithmetic on the three fields of each operand: alignment to the larger
exponent, sum or absolute difference, one normalising shift, saturation at exponent 7. That the sign of a
difference follows the aligned mantissas is the spec's decision D10 (log 28). -/
def Obligations.FloatAddFollowsFieldArithmetic : Prop :=
  ∀ a b : Byte,
    let s1 := a.toNat / 128
    let e1 := a.toNat / 16 % 8
    let m1 := a.toNat % 16
    let s2 := b.toNat / 128
    let e2 := b.toNat / 16 % 8
    let m2 := b.toNat % 16
    let e := max e1 e2
    let n1 := m1 / 2 ^ (e - e1)
    let n2 := m2 / 2 ^ (e - e2)
    let m := if s1 = s2 then n1 + n2 else if n2 > n1 then n2 - n1 else n1 - n2
    let sign := if s1 ≠ s2 ∧ n2 > n1 then s2 else s1
    let m' := if m > 15 then m / 2 else m
    let e' := if m > 15 then e + 1 else e
    (floatAdd a b).toNat = if e' ≥ 7 then sign * 128 + 127 else sign * 128 + e' * 16 + m'

/-- The adder as the source words it, with its two loops and its underflow clamp, is `floatAdd`: the alignment loop
is one shift, the normalising loop runs at most once, and the clamp is never taken (inferences of rules R122, R125
and R127). -/
def Obligations.FloatAddAsWrittenIsFloatAdd : Prop :=
  ∀ a b : Byte, floatAddAsWritten a b = floatAdd a b

/-- Addition commutes unless the signs differ and the aligned mantissas tie (an inference of rule R130; it rests on
the spec's decision D10, log 28): two operands of one sign commute, and so do two whose aligned mantissas differ. -/
def Obligations.FloatAddCommutesOffTies : Prop :=
  ∀ a b : Byte,
    let e := max (a.toNat / 16 % 8) (b.toNat / 16 % 8)
    (a.toNat / 128 = b.toNat / 128 ∨
      a.toNat % 16 / 2 ^ (e - a.toNat / 16 % 8) ≠ b.toNat % 16 / 2 ^ (e - b.toNat / 16 % 8)) →
    floatAdd a b = floatAdd b a

/-- A sum with exponent 7 has mantissa 15 (an inference of rule R130), and an operand with exponent 7 always gives
such a sum (a corner case of rule R129). -/
def Obligations.FloatExponentSevenSaturates : Prop :=
  ∀ a b : Byte,
    ((floatAdd a b).toNat / 16 % 8 = 7 → (floatAdd a b).toNat % 16 = 15) ∧
    (a.toNat / 16 % 8 = 7 ∨ b.toNat / 16 % 8 = 7 → floatAdd a b = 0x7F ∨ floatAdd a b = 0xFF)

/-! ## Memory -/

/-- `MemRead` and `MemWrite`, whole (rules R41 and R42): in range, the cell's byte, and a write that changes that
cell alone; out of range, a report, 0x00 for a read and no change for a write. -/
def Obligations.MemoryContractReadAndWrite : Prop :=
  ∀ (a : Nat) (v : Byte) (s : State),
    (a < 256 →
      memRead a s = (Memory.get s.mem a, s) ∧ Memory.get (memWrite a v s).mem a = v ∧
      MemoryKeptBut a s (memWrite a v s) ∧ RegsKept s (memWrite a v s) ∧ ChannelsKept s (memWrite a v s) ∧
      ModeKept s (memWrite a v s) ∧ (memWrite a v s).pc = s.pc) ∧
    (256 ≤ a →
      memRead a s = (0x00, { s with diag := s.diag ++ [.outOfBoundsAccess .read a] }) ∧
      memWrite a v s = { s with diag := s.diag ++ [.outOfBoundsAccess .write a] })

/-- Self-modifying code (rule R56): a STORE fetched anywhere in the memory, onto its own bytes or not, has its own
effect unchanged, and the next fetch sees the byte it stored wherever that byte lies. -/
def Obligations.StoreIsSeenByNextFetch : Prop :=
  ∀ (s t : State) (r : RegIdx) (xy : Byte), s.run = .running → s.fault = none → s.pc.toNat ≤ 0xFF →
    fetchedInstr s = .store r xy → step s = .next t →
    Memory.get t.mem xy.toNat = readReg r s ∧ t.pc.toNat = s.pc.toNat + 2 ∧
    (fetch t).1 =
      (if xy.toNat = s.pc.toNat + 2 then readReg r s else byteSeen s (s.pc.toNat + 2),
       if xy.toNat = s.pc.toNat + 3 then readReg r s else byteSeen s (s.pc.toNat + 3))

/-! ## Invariants of the step -/

/-- Every step keeps the memory's canonical form, the model's choice of representation (log 13, DESIGN CHOICE), and a
`pc` inside 0 to 0x101, the bound of rule R94, which the spec marks as derived. -/
def Obligations.StepKeepsInvariant : Prop :=
  ∀ s t : State, s.MemoryCanonical → s.PcBounded → step s = .next t → t.MemoryCanonical ∧ t.PcBounded

/-- The reset state has both, whatever the open parameter `reg_reset` is: the empty memory in the model's canonical
form (log 13, DESIGN CHOICE), and `pc` at 0x10, the spec's decision D4 (log 23). -/
def Obligations.ResetMeetsInvariant : Prop :=
  ∀ regReset : Vector Byte 16,
    (State.resetWith regReset).MemoryCanonical ∧ (State.resetWith regReset).PcBounded

/-- A `pc` that a step moves is two past where it was or two past the fetched jump's target, as natural numbers, and
it moves only from inside the memory; so it is at most 0x101 and the nine bits never wrap (rule R94, an inference
of the spec). -/
def Obligations.StepNeverWrapsPc : Prop :=
  ∀ s t : State, step s = .next t →
    t.pc = s.pc ∨
      (s.Enabled ∧ s.pc.toNat ≤ 0xFF ∧ t.pc.toNat ≤ 0x101 ∧
        (t.pc.toNat = s.pc.toNat + 2 ∨
          ∃ (r : RegIdx) (xy : Byte), (fetchedInstr s = .jmpeq r xy ∨ fetchedInstr s = .jmpgt r xy) ∧
            t.pc.toNat = xy.toNat + 2))

/-! ## Whole-machine rules -/

/-- A step changes a register only if the table of rule R23 gives the fetched instruction that destination; and a
register the table does not list as read has no influence on anything but itself. -/
def Obligations.RegisterTableHolds : Prop :=
  (∀ s t : State, step s = .next t →
    ∀ q : RegIdx, destination (fetchedInstr s) ≠ some q → readReg q t = readReg q s) ∧
  (∀ (i : Instr) (q : RegIdx) (v : Byte) (s t : State), readsReg i q = false → exec i s = .next t →
    ∃ t', exec i (writeReg q v s) = .next t' ∧ (t' = t ∨ t' = writeReg q v t))

/-- Only STORE changes the memory, and only the cell it addresses (an inference of rule R44's list). -/
def Obligations.OnlyStoreChangesMemory : Prop :=
  ∀ s t : State, step s = .next t →
    ∀ a : Nat, (∀ (r : RegIdx) (xy : Byte), fetchedInstr s = .store r xy → a ≠ addressOperand xy) →
      Memory.get t.mem a = Memory.get s.mem a

/-- Only a STORE to cell 0x00 appends to the output channel, one byte, the stored one (rules R28 and R43); among the
controller's calls only `fetchAndExecute` can (the spec's decision D9, log 27; calls on a marked state are log 8). -/
def Obligations.OnlyStoreToCellZeroEmitsOutput : Prop :=
  (∀ s t : State, step s = .next t →
    t.out = s.out ∨
      ∃ r : RegIdx, s.Enabled ∧ fetchedInstr s = .store r 0x00 ∧ t.out = s.out ++ [readReg r s]) ∧
  (∀ (c : Call) (s t : State) (reply : Reply), c ≠ .fetchAndExecute → call c s = .next (t, reply) →
    t.out = s.out)

/-- A step appends at most two out-of-bounds reads and then at most one decode failure, with the step's own `pc`
(the last sentence of rule R87, after the spec's decision D15, log 32). -/
def Obligations.StepAppendsBoundedDiagnostics : Prop :=
  ∀ s t : State, step s = .next t →
    ∃ reads failures : List Diagnostic, t.diag = s.diag ++ reads ++ failures ∧
      reads.length ≤ 2 ∧ (∀ d ∈ reads, ∃ a, 256 ≤ a ∧ d = .outOfBoundsAccess .read a) ∧
      failures.length ≤ 1 ∧ (∀ d ∈ failures, ∃ word sub, d = .decodeFailure s.pc word sub) ∧
      (failures ≠ [] → t.run = .halted ∧ t.pc = s.pc)

/-- An enabled step halts the engine exactly when the fetched instruction is HALT or an invalid word; a Halted
engine's step changes nothing; `halt()` and `start()` set the run state and nothing else, and `running()` reads it
(rules R81, R88 and R91; the Halted step and `start()` keeping `pc` are the spec's decision D7, log 25; that the
three calls act in a state with a fault mark too is the model's choice, log 8, DESIGN CHOICE). -/
def Obligations.RunStateMachine : Prop :=
  (∀ s t : State, s.run = .running → s.fault = none → step s = .next t →
    (t.run = .halted ↔ fetchedInstr s = .halt ∨ (fetchedInstr s).wellFormed = false)) ∧
  (∀ s : State, s.run = .halted → s.fault = none → step s = .next s) ∧
  (∀ s : State, call .halt s = .next ({ s with run := .halted }, .done) ∧
    call .start s = .next ({ s with run := .running }, .done) ∧
    call .running s = .next (s, .flag (decide (s.run = .running))))

/-- The fault mark is set by an ADD whose sum is above 255 and by nothing else (rule R204, the spec's decision D1,
log 20; that this step answers a next state is log 2, DEDUCED), and no step and no controller call clears or changes
it (rule R30; that calls act on a marked state at all is log 8, DESIGN CHOICE). -/
def Obligations.FaultMarkOnlyFromAddOverflow : Prop :=
  (∀ s t : State, s.run = .running → s.fault = none → step s = .next t →
    (t.fault ≠ none ↔ ∃ r a b : RegIdx, fetchedInstr s = .add r a b ∧
      255 < (readReg a s).toNat + (readReg b s).toNat)) ∧
  (∀ (c : Call) (s t : State) (reply : Reply), call c s = .next (t, reply) →
    (s.fault ≠ none → t.fault = s.fault) ∧ (c ≠ .fetchAndExecute → t.fault = s.fault))

/-- Neither channel is read: with other contents in the output channel and the diagnostic log, a step makes the same
next state and appends the same events (rules R28 and R29: no instruction reads them). -/
def Obligations.ChannelsDoNotInfluenceStep : Prop :=
  ∀ (s t : State) (out : List Byte) (diag : List Diagnostic), step s = .next t →
    ∃ (moreOut : List Byte) (moreDiag : List Diagnostic),
      t.out = s.out ++ moreOut ∧ t.diag = s.diag ++ moreDiag ∧
      step { s with out := out, diag := diag } =
        .next { t with out := out ++ moreOut, diag := diag ++ moreDiag }

/-- Along a run without a fault mark the output channel and the diagnostic log only grow at their ends (rules R28 and
R29). -/
def Obligations.ChannelsOnlyGrowAlongRuns : Prop :=
  ∀ (k : Nat) (s t : State), SafeRun k s t → s.out <+: t.out ∧ s.diag <+: t.diag

/-- A final state is the end of every run from it: nothing changes any more (rules R81 and R93; that a step of a
Halted engine is a no-op is the spec's decision D7, log 25). -/
def Obligations.FinalStateNeverChanges : Prop :=
  ∀ (k : Nat) (s t : State), s.Final → SafeRun k s t → t = s

/-! ## The controller -/

/-- `loadProgram` with tokens of four hex digits each (rules R71 and R90): the i-th token `c0 c1 c2 c3` puts
`hex(c0 c1)` at 0x10 + 2i and `hex(c2 c3)` at 0x11 + 2i as far as the memory goes; every dropped byte is reported,
in order; `pc` is 0x10; nothing else changes. What the load leaves alone is the spec's decision D14 (log 31); that
the call acts in a state with a fault mark too is the model's choice (log 8, DESIGN CHOICE). -/
def Obligations.LoadProgramPlacesWords : Prop :=
  ∀ (tokens : List (List Char)) (s : State), (∀ token ∈ tokens, HexToken token) →
    ∃ t, call (.loadProgram tokens) s = .next (t, .done) ∧ t.pc.toNat = 0x10 ∧
      (∀ (i : Nat) (c0 c1 c2 c3 : Char) (v0 v1 v2 v3 : Nat), tokens[i]? = some [c0, c1, c2, c3] →
        HexDigit c0 v0 → HexDigit c1 v1 → HexDigit c2 v2 → HexDigit c3 v3 →
        (0x10 + 2 * i < 256 → (Memory.get t.mem (0x10 + 2 * i)).toNat = v0 * 16 + v1) ∧
        (0x11 + 2 * i < 256 → (Memory.get t.mem (0x11 + 2 * i)).toNat = v2 * 16 + v3)) ∧
      (∀ a : Nat, a < 0x10 ∨ 0x10 + 2 * tokens.length ≤ a ∨ 256 ≤ a →
        Memory.get t.mem a = Memory.get s.mem a) ∧
      t.diag = s.diag ++ ((((List.range (2 * tokens.length)).map (0x10 + ·)).filter
        fun a => decide (256 ≤ a)).map (.outOfBoundsAccess .write ·)) ∧
      RegsKept s t ∧ ModeKept s t ∧ t.out = s.out

/-- `loadProgram` is refused, as a whole, exactly when some token is not four characters that are hex digits of
either case (rule R90, the spec's decision D14, log 31; calls on a marked state are log 8, DESIGN CHOICE). -/
def Obligations.LoadProgramRefusesBadTokens : Prop :=
  ∀ (tokens : List (List Char)) (s : State),
    call (.loadProgram tokens) s = .refused .badToken ↔
      ∃ token ∈ tokens, ¬ (token.length = 4 ∧
        ∀ c ∈ token, ('0' ≤ c ∧ c ≤ '9') ∨ ('A' ≤ c ∧ c ≤ 'F') ∨ ('a' ≤ c ∧ c ≤ 'f'))

/-- The accessors of the registers, `pc` and the two channels (rule R92): a value written is the value read back,
every other register and everything else stay; the channels are read whole with the state unchanged; and an argument
out of its range is refused (the spec's decision D17, log 33). That the calls act in a state with a fault mark too
is the model's choice (log 8, DESIGN CHOICE). -/
def Obligations.RegisterPcAndChannelAccessors : Prop :=
  ∀ (i v p : Nat) (s : State),
    (i < 16 → v < 256 → ∃ t, call (.writeReg i v) s = .next (t, .done) ∧
      call (.readReg i) t = .next (t, .byte (BitVec.ofNat 8 v)) ∧ RegsKeptBut (BitVec.ofNat 4 i) s t ∧
      MemoryKept s t ∧ ChannelsKept s t ∧ ModeKept s t ∧ t.pc = s.pc) ∧
    (i < 16 → 256 ≤ v → call (.writeReg i v) s = .refused .badByte) ∧
    (16 ≤ i → call (.writeReg i v) s = .refused .badRegister ∧ call (.readReg i) s = .refused .badRegister) ∧
    (p < 512 → ∃ t, call (.writePC p) s = .next (t, .done) ∧ t.pc.toNat = p ∧
      call .readPC t = .next (t, .address t.pc) ∧ OnlyPcMoved s t) ∧
    (512 ≤ p → call (.writePC p) s = .refused .badPc) ∧
    call .readOut s = .next (s, .output s.out) ∧ call .readDiag s = .next (s, .diagnostics s.diag)

/-- The memory accessors (rules R57 and R92): in range, the cell alone, with no output event even at cell 0x00 (the
spec's decision D9, log 27); out of range, a report; a value that is no byte is refused (its decision D17,
log 33). That the calls act in a state with a fault mark too is the model's choice (log 8, DESIGN CHOICE). -/
def Obligations.MemoryAccessors : Prop :=
  ∀ (a v : Nat) (s : State),
    (a < 256 → v < 256 → ∃ t, call (.writeMem a v) s = .next (t, .done) ∧
      call (.readMem a) t = .next (t, .byte (BitVec.ofNat 8 v)) ∧ MemoryKeptBut a s t ∧ RegsKept s t ∧
      ChannelsKept s t ∧ ModeKept s t ∧ t.pc = s.pc) ∧
    (256 ≤ a → v < 256 → call (.writeMem a v) s =
      .next ({ s with diag := s.diag ++ [.outOfBoundsAccess .write a] }, .done)) ∧
    (256 ≤ a → call (.readMem a) s =
      .next ({ s with diag := s.diag ++ [.outOfBoundsAccess .read a] }, .byte 0x00)) ∧
    (256 ≤ v → call (.writeMem a v) s = .refused .badByte)

/-- Every controller call keeps the memory's canonical form, `loadProgram` of any length included. The form is the
model's choice of representation (log 13, DESIGN CHOICE), no rule of the spec; that calls act on a marked state is
log 8 (DESIGN CHOICE). -/
def Obligations.ControllerKeepsMemoryCanonical : Prop :=
  ∀ (c : Call) (s t : State) (reply : Reply), s.MemoryCanonical → call c s = .next (t, reply) →
    t.MemoryCanonical

/-! ## Reset -/

/-- The machine at construction: zero memory (rule R220), and `pc`, the run state and the channels as the spec
decides (rules R221, R223 and R224 with its decisions D4, D6 and D8; log 23, 24 and 26). The registers are the open
parameter `reg_reset` (rule R222); the model's own reset takes zeros (log 1). -/
def Obligations.ResetState : Prop :=
  ∀ regReset : Vector Byte 16,
    (∀ a : Nat, Memory.get (State.resetWith regReset).mem a = 0x00) ∧
    (State.resetWith regReset).pc = 0x10 ∧ (State.resetWith regReset).run = .running ∧
    (State.resetWith regReset).out = [] ∧ (State.resetWith regReset).diag = [] ∧
    (State.resetWith regReset).fault = none ∧
    (∀ q : RegIdx, readReg q (State.resetWith regReset) = regReset[q.toNat]'q.isLt) ∧
    State.reset = State.resetWith (Vector.replicate 16 0x00)

/-- A step at reset, before any program is loaded, fetches 0x0000 at 0x10 and halts with the decode failure, whatever
the registers hold (rule R223, an inference of the spec). -/
def Obligations.FirstStepAtResetHalts : Prop :=
  ∀ regReset : Vector Byte 16,
    step (State.resetWith regReset) = .next { State.resetWith regReset with
      run := .halted, diag := [.decodeFailure 0x10 0x0000 .malformedWord] }
end

