-- ==== Sys2Proof/Laws/State.lean ====
section
/-! SUPPORT. One lemma for each field of the state and each one-field update of Machine/Ops.lean, so that no
proof unfolds a record update; and the fields of the reset state. -/

namespace Sys2Proof.Machine

/-! ### writeReg -/

@[simp] theorem writeReg_regs (i : RegIdx) (v : Byte) (s : State) : (writeReg i v s).regs = s.regs.set i.toNat v i.isLt := rfl
@[simp] theorem writeReg_pc (i : RegIdx) (v : Byte) (s : State) : (writeReg i v s).pc = s.pc := rfl
@[simp] theorem writeReg_run (i : RegIdx) (v : Byte) (s : State) : (writeReg i v s).run = s.run := rfl
@[simp] theorem writeReg_mem (i : RegIdx) (v : Byte) (s : State) : (writeReg i v s).mem = s.mem := rfl
@[simp] theorem writeReg_out (i : RegIdx) (v : Byte) (s : State) : (writeReg i v s).out = s.out := rfl
@[simp] theorem writeReg_diag (i : RegIdx) (v : Byte) (s : State) : (writeReg i v s).diag = s.diag := rfl
@[simp] theorem writeReg_fault (i : RegIdx) (v : Byte) (s : State) : (writeReg i v s).fault = s.fault := rfl

/-! ### setPc -/

@[simp] theorem setPc_regs (v : PcVal) (s : State) : (setPc v s).regs = s.regs := rfl
@[simp] theorem setPc_pc (v : PcVal) (s : State) : (setPc v s).pc = v := rfl
@[simp] theorem setPc_run (v : PcVal) (s : State) : (setPc v s).run = s.run := rfl
@[simp] theorem setPc_mem (v : PcVal) (s : State) : (setPc v s).mem = s.mem := rfl
@[simp] theorem setPc_out (v : PcVal) (s : State) : (setPc v s).out = s.out := rfl
@[simp] theorem setPc_diag (v : PcVal) (s : State) : (setPc v s).diag = s.diag := rfl
@[simp] theorem setPc_fault (v : PcVal) (s : State) : (setPc v s).fault = s.fault := rfl

/-! ### setRun -/

@[simp] theorem setRun_regs (v : RunState) (s : State) : (setRun v s).regs = s.regs := rfl
@[simp] theorem setRun_pc (v : RunState) (s : State) : (setRun v s).pc = s.pc := rfl
@[simp] theorem setRun_run (v : RunState) (s : State) : (setRun v s).run = v := rfl
@[simp] theorem setRun_mem (v : RunState) (s : State) : (setRun v s).mem = s.mem := rfl
@[simp] theorem setRun_out (v : RunState) (s : State) : (setRun v s).out = s.out := rfl
@[simp] theorem setRun_diag (v : RunState) (s : State) : (setRun v s).diag = s.diag := rfl
@[simp] theorem setRun_fault (v : RunState) (s : State) : (setRun v s).fault = s.fault := rfl

/-! ### setCell -/

@[simp] theorem setCell_regs (a : Nat) (v : Byte) (s : State) : (setCell a v s).regs = s.regs := rfl
@[simp] theorem setCell_pc (a : Nat) (v : Byte) (s : State) : (setCell a v s).pc = s.pc := rfl
@[simp] theorem setCell_run (a : Nat) (v : Byte) (s : State) : (setCell a v s).run = s.run := rfl
@[simp] theorem setCell_mem (a : Nat) (v : Byte) (s : State) : (setCell a v s).mem = Memory.set s.mem a v := rfl
@[simp] theorem setCell_out (a : Nat) (v : Byte) (s : State) : (setCell a v s).out = s.out := rfl
@[simp] theorem setCell_diag (a : Nat) (v : Byte) (s : State) : (setCell a v s).diag = s.diag := rfl
@[simp] theorem setCell_fault (a : Nat) (v : Byte) (s : State) : (setCell a v s).fault = s.fault := rfl

/-! ### emitOutput -/

@[simp] theorem emitOutput_regs (v : Byte) (s : State) : (emitOutput v s).regs = s.regs := rfl
@[simp] theorem emitOutput_pc (v : Byte) (s : State) : (emitOutput v s).pc = s.pc := rfl
@[simp] theorem emitOutput_run (v : Byte) (s : State) : (emitOutput v s).run = s.run := rfl
@[simp] theorem emitOutput_mem (v : Byte) (s : State) : (emitOutput v s).mem = s.mem := rfl
@[simp] theorem emitOutput_out (v : Byte) (s : State) : (emitOutput v s).out = s.out ++ [v] := rfl
@[simp] theorem emitOutput_diag (v : Byte) (s : State) : (emitOutput v s).diag = s.diag := rfl
@[simp] theorem emitOutput_fault (v : Byte) (s : State) : (emitOutput v s).fault = s.fault := rfl

/-! ### report -/

@[simp] theorem report_regs (d : Diagnostic) (s : State) : (report d s).regs = s.regs := rfl
@[simp] theorem report_pc (d : Diagnostic) (s : State) : (report d s).pc = s.pc := rfl
@[simp] theorem report_run (d : Diagnostic) (s : State) : (report d s).run = s.run := rfl
@[simp] theorem report_mem (d : Diagnostic) (s : State) : (report d s).mem = s.mem := rfl
@[simp] theorem report_out (d : Diagnostic) (s : State) : (report d s).out = s.out := rfl
@[simp] theorem report_diag (d : Diagnostic) (s : State) : (report d s).diag = s.diag ++ [d] := rfl
@[simp] theorem report_fault (d : Diagnostic) (s : State) : (report d s).fault = s.fault := rfl

/-! ### setFault -/

@[simp] theorem setFault_regs (f : Fault) (s : State) : (setFault f s).regs = s.regs := rfl
@[simp] theorem setFault_pc (f : Fault) (s : State) : (setFault f s).pc = s.pc := rfl
@[simp] theorem setFault_run (f : Fault) (s : State) : (setFault f s).run = s.run := rfl
@[simp] theorem setFault_mem (f : Fault) (s : State) : (setFault f s).mem = s.mem := rfl
@[simp] theorem setFault_out (f : Fault) (s : State) : (setFault f s).out = s.out := rfl
@[simp] theorem setFault_diag (f : Fault) (s : State) : (setFault f s).diag = s.diag := rfl
@[simp] theorem setFault_fault (f : Fault) (s : State) : (setFault f s).fault = some f := rfl

/-! ### reset -/

@[simp] theorem resetWith_regs (regReset : Vector Byte 16) : (State.resetWith regReset).regs = regReset := rfl
@[simp] theorem resetWith_pc (regReset : Vector Byte 16) : (State.resetWith regReset).pc = BitVec.ofNat 9 Config.loadOffset := rfl
@[simp] theorem resetWith_run (regReset : Vector Byte 16) : (State.resetWith regReset).run = .running := rfl
@[simp] theorem resetWith_mem (regReset : Vector Byte 16) : (State.resetWith regReset).mem = [] := rfl
@[simp] theorem resetWith_out (regReset : Vector Byte 16) : (State.resetWith regReset).out = [] := rfl
@[simp] theorem resetWith_diag (regReset : Vector Byte 16) : (State.resetWith regReset).diag = [] := rfl
@[simp] theorem resetWith_fault (regReset : Vector Byte 16) : (State.resetWith regReset).fault = none := rfl

end Sys2Proof.Machine
end

