-- ==== Sys2Proof/Laws/Memory.lean ====
section
/-! SUPPORT. The laws of the memory as data: a read after a write, and the canonical form. -/

namespace Sys2Proof.Machine

@[simp] theorem get_nil (a : Nat) : Memory.get [] a = Config.unlistedByte := rfl

theorem get_cons (c : Host.Cell) (m : Memory) (a : Nat) :
    Memory.get (c :: m) a = if c.1 = a then c.2 else Memory.get m a := rfl

theorem erase_cons (c : Host.Cell) (m : Memory) (a : Nat) :
    Memory.erase (c :: m) a = if c.1 = a then Memory.erase m a else c :: Memory.erase m a := by
  by_cases h : c.1 = a <;> simp [Memory.erase, h]

/-- An erased address reads as an unlisted one; every other address reads as before. -/
theorem get_erase (m : Memory) (a b : Nat) :
    Memory.get (Memory.erase m a) b = if b = a then Config.unlistedByte else Memory.get m b := by
  induction m with
  | nil => simp [Memory.erase]
  | cons c m ih =>
    rw [erase_cons]
    by_cases hc : c.1 = a
    · rw [if_pos hc, ih, get_cons]
      by_cases hb : b = a
      · simp [hb]
      · have hcb : ¬ c.1 = b := fun h => hb (h.symm.trans hc)
        simp [hb, hcb]
    · rw [if_neg hc, get_cons, ih, get_cons]
      by_cases hb : b = a
      · subst hb; simp [hc]
      · simp [hb]

/-- Inserting at an address that lists nothing makes it read as the byte; every other address reads as before. -/
theorem get_insert (m : Memory) (a : Nat) (v : Byte) (b : Nat) (fresh : ∀ c ∈ m, c.1 ≠ a) :
    Memory.get (Memory.insert m a v) b = if b = a then v else Memory.get m b := by
  induction m with
  | nil => simp only [Memory.insert, get_cons, get_nil, eq_comm]
  | cons c m ih =>
    have hc : c.1 ≠ a := fresh c (by simp)
    simp only [Memory.insert]
    split
    · simp only [get_cons, eq_comm]
    · rw [get_cons, ih fun d hd => fresh d (by simp [hd]), get_cons]
      by_cases hb : b = a
      · subst hb; simp [hc]
      · simp [hb]

theorem erase_fresh (m : Memory) (a : Nat) : ∀ c ∈ Memory.erase m a, c.1 ≠ a := by
  intro c hc
  simpa using (List.mem_filter.mp hc).2

/-- What a write does to every read: the address written reads as the byte, every other as before. -/
theorem get_set (m : Memory) (a : Nat) (v : Byte) (b : Nat) :
    Memory.get (Memory.set m a v) b = if b = a then v else Memory.get m b := by
  unfold Memory.set
  split
  · next h => rw [get_erase, h]
  · rw [get_insert _ _ _ _ (erase_fresh m a), get_erase]
    by_cases hb : b = a <;> simp [hb]

@[simp] theorem get_set_self (m : Memory) (a : Nat) (v : Byte) : Memory.get (Memory.set m a v) a = v := by
  simp [get_set]

theorem get_set_other {a b : Nat} (h : b ≠ a) (m : Memory) (v : Byte) :
    Memory.get (Memory.set m a v) b = Memory.get m b := by
  simp [get_set, h]

/-! ## The canonical form -/

theorem wfFrom_cons (lo : Nat) (c : Host.Cell) (m : Memory) :
    Memory.wfFrom lo (c :: m) = true ↔
      lo ≤ c.1 ∧ c.1 < Config.memSize ∧ c.2 ≠ Config.unlistedByte ∧ Memory.wfFrom (c.1 + 1) m = true := by
  simp [Memory.wfFrom, and_assoc]

theorem wfFrom_mono {lo lo' : Nat} (h : lo' ≤ lo) (m : Memory) (hm : Memory.wfFrom lo m = true) :
    Memory.wfFrom lo' m = true := by
  cases m with
  | nil => rfl
  | cons c m =>
    rw [wfFrom_cons] at *
    exact ⟨h.trans hm.1, hm.2⟩

theorem erase_wfFrom (m : Memory) (a lo : Nat) (hm : Memory.wfFrom lo m = true) :
    Memory.wfFrom lo (Memory.erase m a) = true := by
  induction m generalizing lo with
  | nil => rfl
  | cons c m ih =>
    obtain ⟨hlo, hsize, hv, hm⟩ := (wfFrom_cons lo c m).mp hm
    rw [erase_cons]
    split
    · exact wfFrom_mono (by omega) _ (ih _ hm)
    · exact (wfFrom_cons lo c _).mpr ⟨hlo, hsize, hv, ih _ hm⟩

theorem insert_wfFrom (m : Memory) (a : Nat) (v : Byte) (lo : Nat) (hlo : lo ≤ a) (hsize : a < Config.memSize)
    (hv : v ≠ Config.unlistedByte) (fresh : ∀ c ∈ m, c.1 ≠ a) (hm : Memory.wfFrom lo m = true) :
    Memory.wfFrom lo (Memory.insert m a v) = true := by
  induction m generalizing lo with
  | nil => exact (wfFrom_cons lo _ _).mpr ⟨hlo, hsize, hv, rfl⟩
  | cons c m ih =>
    have hc : c.1 ≠ a := fresh c (by simp)
    obtain ⟨h1, h2, h3, h4⟩ := (wfFrom_cons lo c m).mp hm
    simp only [Memory.insert]
    split
    · next hlt => exact (wfFrom_cons lo _ _).mpr ⟨hlo, hsize, hv, (wfFrom_cons _ c m).mpr ⟨hlt, h2, h3, h4⟩⟩
    · exact (wfFrom_cons lo c _).mpr
        ⟨h1, h2, h3, ih _ (by omega) (fun d hd => fresh d (by simp [hd])) h4⟩

/-- A write inside the memory keeps the canonical form. -/
theorem set_wf (m : Memory) (a : Nat) (v : Byte) (ha : a < Config.memSize) (hm : Memory.wf m = true) :
    Memory.wf (Memory.set m a v) = true := by
  unfold Memory.set
  split
  · exact erase_wfFrom m a 0 hm
  · next hv => exact insert_wfFrom _ a v 0 (by omega) ha hv (erase_fresh m a) (erase_wfFrom m a 0 hm)

end Sys2Proof.Machine
end

