-- ==== Sys2Proof/Laws/Ops.lean ====
section
/-! SUPPORT. One lemma for each shared operation, saying what it can do. -/

namespace Sys2Proof.Machine

/-! ## Registers -/

theorem readReg_writeReg (i : RegIdx) (v : Byte) (q : RegIdx) (s : State) :
    readReg q (writeReg i v s) = if q = i then v else readReg q s := by
  unfold readReg
  simp only [writeReg_regs, Vector.getElem_set]
  by_cases h : q = i
  · simp [h]
  · have hne : ¬ i.toNat = q.toNat := fun e => h (BitVec.eq_of_toNat_eq e.symm)
    simp [h, hne]

@[simp] theorem readReg_writeReg_self (i : RegIdx) (v : Byte) (s : State) : readReg i (writeReg i v s) = v := by
  simp [readReg_writeReg]

theorem readReg_writeReg_other {i q : RegIdx} (h : q ≠ i) (v : Byte) (s : State) :
    readReg q (writeReg i v s) = readReg q s := by
  simp [readReg_writeReg, h]

/-- A register reads the same in two states with the same registers. -/
theorem readReg_congr {s t : State} (h : t.regs = s.regs) (q : RegIdx) : readReg q t = readReg q s := by
  unfold readReg
  simp only [h]

@[simp] theorem readReg_setPc (v : PcVal) (q : RegIdx) (s : State) : readReg q (setPc v s) = readReg q s := rfl
@[simp] theorem readReg_setRun (v : RunState) (q : RegIdx) (s : State) : readReg q (setRun v s) = readReg q s := rfl
@[simp] theorem readReg_setCell (a : Nat) (v : Byte) (q : RegIdx) (s : State) :
    readReg q (setCell a v s) = readReg q s := rfl
@[simp] theorem readReg_emitOutput (v : Byte) (q : RegIdx) (s : State) :
    readReg q (emitOutput v s) = readReg q s := rfl
@[simp] theorem readReg_report (d : Diagnostic) (q : RegIdx) (s : State) :
    readReg q (report d s) = readReg q s := rfl
@[simp] theorem readReg_setFault (f : Fault) (q : RegIdx) (s : State) :
    readReg q (setFault f s) = readReg q s := rfl

/-! ## The memory's contract -/

theorem memRead_inRange {a : Nat} (h : a < 256) (s : State) : memRead a s = (Memory.get s.mem a, s) :=
  if_pos h

theorem memRead_outOfRange {a : Nat} (h : 256 ≤ a) (s : State) :
    memRead a s = (0x00, report (.outOfBoundsAccess .read a) s) :=
  if_neg (Nat.not_lt.mpr h)

theorem memWrite_inRange {a : Nat} (h : a < 256) (v : Byte) (s : State) : memWrite a v s = setCell a v s :=
  if_pos h

theorem memWrite_outOfRange {a : Nat} (h : 256 ≤ a) (v : Byte) (s : State) :
    memWrite a v s = report (.outOfBoundsAccess .write a) s :=
  if_neg (Nat.not_lt.mpr h)

/-- An instruction's data address is never out of range (20_memory.md rule R45). -/
theorem addressOperand_lt (xy : Byte) : addressOperand xy < 256 := xy.isLt

/-- A write through the contract keeps the memory's canonical form. -/
theorem memWrite_wf (a : Nat) (v : Byte) (s : State) (h : Memory.wf s.mem = true) :
    Memory.wf (memWrite a v s).mem = true := by
  unfold memWrite
  split
  · next ha => exact set_wf s.mem a v ha h
  · exact h

/-! ## Fetch: what it reads, and what it reports -/

theorem fetch_inside {s : State} (h : s.pc.toNat + 1 < 256) :
    fetch s = ((Memory.get s.mem s.pc.toNat, Memory.get s.mem (s.pc.toNat + 1)), s) := by
  simp [fetch, memRead_inRange h, memRead_inRange (show s.pc.toNat < 256 by omega)]

theorem fetch_lastCell {s : State} (h : s.pc.toNat = 255) :
    fetch s = ((Memory.get s.mem 255, 0x00), report (.outOfBoundsAccess .read 256) s) := by
  simp [fetch, h, memRead_inRange (show (255 : Nat) < 256 by omega), memRead_outOfRange (Nat.le_refl 256)]

theorem fetch_outside {s : State} (h : 256 ≤ s.pc.toNat) :
    fetch s = ((0x00, 0x00), report (.outOfBoundsAccess .read (s.pc.toNat + 1))
      (report (.outOfBoundsAccess .read s.pc.toNat) s)) := by
  simp [fetch, memRead_outOfRange h, memRead_outOfRange (show 256 ≤ s.pc.toNat + 1 by omega)]

/-- The three cases of a fetch, by where `pc` lies. -/
theorem fetch_cases (s : State) :
    (s.pc.toNat + 1 < 256 ∧
      fetch s = ((Memory.get s.mem s.pc.toNat, Memory.get s.mem (s.pc.toNat + 1)), s)) ∨
    (s.pc.toNat = 255 ∧
      fetch s = ((Memory.get s.mem 255, 0x00), report (.outOfBoundsAccess .read 256) s)) ∨
    (256 ≤ s.pc.toNat ∧
      fetch s = ((0x00, 0x00), report (.outOfBoundsAccess .read (s.pc.toNat + 1))
        (report (.outOfBoundsAccess .read s.pc.toNat) s))) := by
  rcases Nat.lt_trichotomy s.pc.toNat 255 with h | h | h
  · exact .inl ⟨by omega, fetch_inside (by omega)⟩
  · exact .inr (.inl ⟨h, fetch_lastCell h⟩)
  · exact .inr (.inr ⟨h, fetch_outside h⟩)

/-- A fetch changes nothing but the diagnostic log, which it appends to. -/
theorem fetch_frame (s : State) :
    ∃ ds : List Diagnostic, ds.length ≤ 2 ∧ (∀ d ∈ ds, ∃ a, d = .outOfBoundsAccess .read a) ∧
      (fetch s).2 = { s with diag := s.diag ++ ds } := by
  rcases fetch_cases s with ⟨-, h⟩ | ⟨-, h⟩ | ⟨-, h⟩
  · exact ⟨[], by simp [h]⟩
  · exact ⟨[.outOfBoundsAccess .read 256], by simp [h, report]⟩
  · exact ⟨[.outOfBoundsAccess .read s.pc.toNat, .outOfBoundsAccess .read (s.pc.toNat + 1)],
      by simp [h, report]⟩

@[simp] theorem fetch_regs (s : State) : (fetch s).2.regs = s.regs := by
  obtain ⟨ds, -, -, h⟩ := fetch_frame s
  rw [h]

@[simp] theorem fetch_pc (s : State) : (fetch s).2.pc = s.pc := by
  obtain ⟨ds, -, -, h⟩ := fetch_frame s
  rw [h]

@[simp] theorem fetch_run (s : State) : (fetch s).2.run = s.run := by
  obtain ⟨ds, -, -, h⟩ := fetch_frame s
  rw [h]

@[simp] theorem fetch_mem (s : State) : (fetch s).2.mem = s.mem := by
  obtain ⟨ds, -, -, h⟩ := fetch_frame s
  rw [h]

@[simp] theorem fetch_out (s : State) : (fetch s).2.out = s.out := by
  obtain ⟨ds, -, -, h⟩ := fetch_frame s
  rw [h]

@[simp] theorem fetch_fault (s : State) : (fetch s).2.fault = s.fault := by
  obtain ⟨ds, -, -, h⟩ := fetch_frame s
  rw [h]

@[simp] theorem readReg_fetch (q : RegIdx) (s : State) : readReg q (fetch s).2 = readReg q s :=
  readReg_congr (fetch_regs s) q

/-- The bytes fetched depend on the memory and `pc` alone. -/
theorem fetch_bytes_congr {s t : State} (hm : t.mem = s.mem) (hp : t.pc = s.pc) : (fetch t).1 = (fetch s).1 := by
  rcases fetch_cases s with ⟨h, e⟩ | ⟨h, e⟩ | ⟨h, e⟩
  · rw [e, fetch_inside (by rw [hp]; exact h), hm, hp]
  · rw [e, fetch_lastCell (by rw [hp]; exact h), hm]
  · rw [e, fetch_outside (by rw [hp]; exact h)]

/-! ## The end of an instruction -/

theorem advance_toNat {a : Nat} (h : a + 2 < 512) : (advance a).toNat = a + 2 := by
  simp [advance, Config.pcStep, Nat.mod_eq_of_lt h]

theorem advance_byte_toNat (b : Byte) : (advance b.toNat).toNat = b.toNat + 2 :=
  advance_toNat (by have := b.isLt; omega)

theorem retire_next (s : State) : retire .next s = setPc (advance s.pc.toNat) s := rfl
theorem retire_jump (b : Byte) (s : State) : retire (.jump b) s = setPc (advance b.toNat) s := rfl
theorem retire_stop (s : State) : retire .stop s = setRun .halted s := rfl
theorem retire_fault (f : Fault) (s : State) : retire (.fault f) s = setFault f s := rfl

/-! ## Conditions -/

theorem equalsComparand_iff (r : RegIdx) (s : State) :
    equalsComparand r s = true ↔ readReg r s = readReg 0 s :=
  decide_eq_true_iff

theorem exceedsComparand_iff (r : RegIdx) (s : State) :
    exceedsComparand r s = true ↔ (readReg 0 s).toNat < (readReg r s).toNat := by
  simp [exceedsComparand, comparand]

theorem sumFits_iff (n : Nat) : sumFits n = true ↔ n ≤ 255 := by simp [sumFits]

end Sys2Proof.Machine
end

