-- ==== Sys2Proof/Laws/Exec.lean ====
section
/-! SUPPORT. What each meaning answers, and one inversion of exec and of step: everything an instruction can do,
said once. -/

namespace Sys2Proof.Machine

/-! ## One equation for each meaning -/

theorem exec_loadi (r : RegIdx) (xy : Byte) (s : State) :
    exec (.loadi r xy) s = .next (setPc (advance s.pc.toNat) (writeReg r xy s)) := rfl

theorem exec_load (r : RegIdx) (xy : Byte) (s : State) :
    exec (.load r xy) s = .next (setPc (advance s.pc.toNat) (writeReg r (Memory.get s.mem xy.toNat) s)) := by
  simp only [exec, execLoad, addressOperand, memRead_inRange xy.isLt, retire_next, writeReg_pc]

theorem storeByte_eq (xy v : Byte) (s : State) :
    storeByte (addressOperand xy) v s =
      if xy.toNat = 0 then emitOutput v (setCell xy.toNat v s) else setCell xy.toNat v s := by
  simp only [storeByte, addressOperand, memWrite_inRange xy.isLt, Config.outputCell]

@[simp] theorem storeByte_regs (xy v : Byte) (s : State) :
    (storeByte (addressOperand xy) v s).regs = s.regs := by
  rw [storeByte_eq]
  split <;> rfl

@[simp] theorem storeByte_pc (xy v : Byte) (s : State) : (storeByte (addressOperand xy) v s).pc = s.pc := by
  rw [storeByte_eq]
  split <;> rfl

@[simp] theorem storeByte_run (xy v : Byte) (s : State) : (storeByte (addressOperand xy) v s).run = s.run := by
  rw [storeByte_eq]
  split <;> rfl

@[simp] theorem storeByte_mem (xy v : Byte) (s : State) :
    (storeByte (addressOperand xy) v s).mem = Memory.set s.mem xy.toNat v := by
  rw [storeByte_eq]
  split <;> rfl

@[simp] theorem storeByte_out (xy v : Byte) (s : State) :
    (storeByte (addressOperand xy) v s).out = if xy.toNat = 0 then s.out ++ [v] else s.out := by
  rw [storeByte_eq]
  split <;> rfl

@[simp] theorem storeByte_diag (xy v : Byte) (s : State) :
    (storeByte (addressOperand xy) v s).diag = s.diag := by
  rw [storeByte_eq]
  split <;> rfl

@[simp] theorem storeByte_fault (xy v : Byte) (s : State) :
    (storeByte (addressOperand xy) v s).fault = s.fault := by
  rw [storeByte_eq]
  split <;> rfl

theorem exec_store (r : RegIdx) (xy : Byte) (s : State) :
    exec (.store r xy) s =
      .next (setPc (advance s.pc.toNat) (storeByte (addressOperand xy) (readReg r s) s)) := by
  simp only [exec, execStore, retire_next, storeByte_eq]
  split <;> rfl

theorem exec_move (src dst : RegIdx) (s : State) :
    exec (.move src dst) s = .next (setPc (advance s.pc.toNat) (writeReg dst (readReg src s) s)) := rfl

theorem exec_add_fits {r a b : RegIdx} {s : State} (h : (readReg a s).toNat + (readReg b s).toNat ≤ 255) :
    exec (.add r a b) s = .next (setPc (advance s.pc.toNat)
      (writeReg r (BitVec.ofNat 8 ((readReg a s).toNat + (readReg b s).toNat)) s)) :=
  if_pos ((sumFits_iff _).mpr h)

theorem exec_add_overflows {r a b : RegIdx} {s : State} (h : 255 < (readReg a s).toNat + (readReg b s).toNat) :
    exec (.add r a b) s =
      .next (setFault (.addOverflow s.pc ((readReg a s).toNat + (readReg b s).toNat)) s) :=
  if_neg fun e => absurd ((sumFits_iff _).mp e) (Nat.not_le.mpr h)

theorem exec_addf (r a b : RegIdx) (s : State) :
    exec (.addf r a b) s =
      .next (setPc (advance s.pc.toNat) (writeReg r (floatAdd (readReg a s) (readReg b s)) s)) := rfl

theorem exec_or (r a b : RegIdx) (s : State) :
    exec (.or r a b) s = .next (setPc (advance s.pc.toNat) (writeReg r (readReg a s ||| readReg b s) s)) := rfl

theorem exec_and (r a b : RegIdx) (s : State) :
    exec (.and r a b) s = .next (setPc (advance s.pc.toNat) (writeReg r (readReg a s &&& readReg b s) s)) := rfl

theorem exec_xor (r a b : RegIdx) (s : State) :
    exec (.xor r a b) s = .next (setPc (advance s.pc.toNat) (writeReg r (readReg a s ^^^ readReg b s) s)) := rfl

theorem exec_rot (r : RegIdx) (n : Nibble) (s : State) :
    exec (.rot r n) s = .next (setPc (advance s.pc.toNat) (writeReg r (readReg r s >>> n.toNat) s)) := rfl

theorem exec_jmpeq_taken {r : RegIdx} {s : State} (h : readReg r s = readReg 0 s) (xy : Byte) :
    exec (.jmpeq r xy) s = .next (setPc (advance xy.toNat) s) :=
  if_pos ((equalsComparand_iff r s).mpr h)

theorem exec_jmpeq_not_taken {r : RegIdx} {s : State} (h : readReg r s ≠ readReg 0 s) (xy : Byte) :
    exec (.jmpeq r xy) s = .next (setPc (advance s.pc.toNat) s) :=
  if_neg fun e => h ((equalsComparand_iff r s).mp e)

theorem exec_halt (s : State) : exec .halt s = .next (setRun .halted s) := rfl

theorem exec_jmpgt_taken {r : RegIdx} {s : State} (h : (readReg 0 s).toNat < (readReg r s).toNat) (xy : Byte) :
    exec (.jmpgt r xy) s = .next (setPc (advance xy.toNat) s) :=
  if_pos ((exceedsComparand_iff r s).mpr h)

theorem exec_jmpgt_not_taken {r : RegIdx} {s : State} (h : ¬ (readReg 0 s).toNat < (readReg r s).toNat)
    (xy : Byte) : exec (.jmpgt r xy) s = .next (setPc (advance s.pc.toNat) s) :=
  if_neg fun e => h ((exceedsComparand_iff r s).mp e)

theorem exec_illegal0 (u : BitVec 12) (s : State) :
    exec (.illegal0 u) s = .next (raiseDecodeFailure s.pc (encode (.illegal0 u)) .malformedWord s) := rfl

theorem exec_illegalE (u : BitVec 12) (s : State) :
    exec (.illegalE u) s = .next (raiseDecodeFailure s.pc (encode (.illegalE u)) .unrecognizedOpcode s) := rfl

theorem exec_illegalF (u : BitVec 12) (s : State) :
    exec (.illegalF u) s = .next (raiseDecodeFailure s.pc (encode (.illegalF u)) .unrecognizedOpcode s) := rfl

/-- What writing one register and moving two past does. -/
theorem regResult_of_write (r : RegIdx) (v : Byte) (s : State) :
    RegResult r v s (setPc (advance s.pc.toNat) (writeReg r v s)) where
  value := by simp
  registers := fun q hq => by simp [readReg_writeReg_other hq]
  memory := fun _ => rfl
  channels := ⟨rfl, rfl⟩
  mode := ⟨rfl, rfl⟩
  pc := fun _ => advance_toNat (by omega)

/-- What moving `pc` alone does. -/
theorem onlyPcMoved_setPc (v : PcVal) (s : State) : OnlyPcMoved s (setPc v s) where
  registers := fun _ => rfl
  memory := fun _ => rfl
  channels := ⟨rfl, rfl⟩
  mode := ⟨rfl, rfl⟩

/-! ## The inversion -/

/-- Everything an instruction can do to a state. -/
inductive Effect (i : Instr) (s : State) : State → Prop
  | register (r : RegIdx) (v : Byte) (dest : destination i = some r) :
      Effect i s (setPc (advance s.pc.toNat) (writeReg r v s))
  | stored (r : RegIdx) (xy : Byte) (isStore : i = .store r xy) :
      Effect i s (setPc (advance s.pc.toNat) (storeByte (addressOperand xy) (readReg r s) s))
  | passed (r : RegIdx) (xy : Byte) (isJump : i = .jmpeq r xy ∨ i = .jmpgt r xy) :
      Effect i s (setPc (advance s.pc.toNat) s)
  | jumped (r : RegIdx) (xy : Byte) (isJump : i = .jmpeq r xy ∨ i = .jmpgt r xy) :
      Effect i s (setPc (advance xy.toNat) s)
  | halted (isHalt : i = .halt) : Effect i s (setRun .halted s)
  | failed (word : Word) (sub : Subcause) (invalid : i.wellFormed = false) :
      Effect i s (raiseDecodeFailure s.pc word sub s)
  | overflowed (r a b : RegIdx) (isAdd : i = .add r a b)
      (large : 255 < (readReg a s).toNat + (readReg b s).toNat) :
      Effect i s (setFault (.addOverflow s.pc ((readReg a s).toNat + (readReg b s).toNat)) s)

/-- Every instruction answers a next state, which is one of its effects. -/
theorem exec_effect (i : Instr) (s : State) : ∃ t, exec i s = .next t ∧ Effect i s t := by
  cases i with
  | loadi r xy => exact ⟨_, exec_loadi r xy s, .register r _ rfl⟩
  | load r xy => exact ⟨_, exec_load r xy s, .register r _ rfl⟩
  | store r xy => exact ⟨_, exec_store r xy s, .stored r xy rfl⟩
  | move a b => exact ⟨_, exec_move a b s, .register b _ rfl⟩
  | add r a b =>
    by_cases h : (readReg a s).toNat + (readReg b s).toNat ≤ 255
    · exact ⟨_, exec_add_fits h, .register r _ rfl⟩
    · exact ⟨_, exec_add_overflows (Nat.not_le.mp h), .overflowed r a b rfl (Nat.not_le.mp h)⟩
  | addf r a b => exact ⟨_, exec_addf r a b s, .register r _ rfl⟩
  | or r a b => exact ⟨_, exec_or r a b s, .register r _ rfl⟩
  | and r a b => exact ⟨_, exec_and r a b s, .register r _ rfl⟩
  | xor r a b => exact ⟨_, exec_xor r a b s, .register r _ rfl⟩
  | rot r n => exact ⟨_, exec_rot r n s, .register r _ rfl⟩
  | jmpeq r xy =>
    by_cases h : readReg r s = readReg 0 s
    · exact ⟨_, exec_jmpeq_taken h xy, .jumped r xy (.inl rfl)⟩
    · exact ⟨_, exec_jmpeq_not_taken h xy, .passed r xy (.inl rfl)⟩
  | halt => exact ⟨_, exec_halt s, .halted rfl⟩
  | jmpgt r xy =>
    by_cases h : (readReg 0 s).toNat < (readReg r s).toNat
    · exact ⟨_, exec_jmpgt_taken h xy, .jumped r xy (.inr rfl)⟩
    · exact ⟨_, exec_jmpgt_not_taken h xy, .passed r xy (.inr rfl)⟩
  | illegal0 u => exact ⟨_, exec_illegal0 u s, .failed _ _ rfl⟩
  | illegalE u => exact ⟨_, exec_illegalE u s, .failed _ _ rfl⟩
  | illegalF u => exact ⟨_, exec_illegalF u s, .failed _ _ rfl⟩

/-- The next state of an instruction is one of its effects. -/
theorem effect_of_exec {i : Instr} {s t : State} (h : exec i s = .next t) : Effect i s t := by
  obtain ⟨u, hu, he⟩ := exec_effect i s
  obtain rfl : u = t := by rw [hu] at h; exact Host.Outcome.next.inj h
  exact he

/-! ## The step -/

theorem step_marked {s : State} {f : Fault} (h : s.fault = some f) : step s = .fault f := by
  simp only [step, h]

theorem step_halted {s : State} (hf : s.fault = none) (hr : s.run = .halted) : step s = .next s := by
  simp only [step, hf, hr]

theorem step_enabled {s : State} (h : s.Enabled) : step s = exec (fetchedInstr s) (fetch s).2 := by
  simp only [step, h.1, h.2, fetchedInstr]

/-- Everything a step that answers a next state can be: nothing, in a Halted state, or the effect of the fetched
instruction on the state after the fetch. -/
theorem step_cases {s t : State} (h : step s = .next t) :
    (s.fault = none ∧ s.run = .halted ∧ t = s) ∨
    (s.Enabled ∧ exec (fetchedInstr s) (fetch s).2 = .next t ∧ Effect (fetchedInstr s) (fetch s).2 t) := by
  cases hf : s.fault with
  | some f => rw [step_marked hf] at h; cases h
  | none =>
    cases hr : s.run with
    | halted =>
      rw [step_halted hf hr] at h
      exact .inl ⟨rfl, rfl, (Host.Outcome.next.inj h).symm⟩
    | running =>
      rw [step_enabled ⟨hr, hf⟩] at h
      exact .inr ⟨⟨hr, hf⟩, h, effect_of_exec h⟩

end Sys2Proof.Machine
end

