-- ==== Sys2Proof/Laws/Controller.lean ====
section
/-! SUPPORT. The token parser and the program load: what a token's bytes are, and what a load keeps. -/

namespace Sys2Proof.Machine

theorem hexDigit_lt {c : Char} {v : Nat} (h : HexDigit c v) : v < 16 := by
  rcases h with h | h <;> exact (List.getElem?_eq_some_iff.mp h).1

/-- The parser reads a hex digit as its value. -/
theorem hexValue_of_hexDigit {c : Char} {v : Nat} (h : HexDigit c v) : hexValue c = some v := by
  have hv := hexDigit_lt h
  rcases h with h | h <;> interval_cases v <;> cases h <;> rfl

/-- The four digits of a token give its high and its low byte. -/
theorem tokenBytes_of_hexDigits {c0 c1 c2 c3 : Char} {v0 v1 v2 v3 : Nat} (h0 : HexDigit c0 v0)
    (h1 : HexDigit c1 v1) (h2 : HexDigit c2 v2) (h3 : HexDigit c3 v3) :
    tokenBytes [c0, c1, c2, c3] = some (BitVec.ofNat 8 (v0 * 16 + v1), BitVec.ofNat 8 (v2 * 16 + v3)) := by
  simp only [tokenBytes, hexValue_of_hexDigit h0, hexValue_of_hexDigit h1, hexValue_of_hexDigit h2,
    hexValue_of_hexDigit h3]

/-- What a write through the contract makes every address read as. -/
theorem get_memWrite (a : Nat) (v : Byte) (s : State) (b : Nat) :
    Memory.get (memWrite a v s).mem b = if b = a ∧ a < 256 then v else Memory.get s.mem b := by
  by_cases h : a < 256
  · simp [memWrite_inRange h, get_set, h]
  · simp [memWrite_outOfRange (Nat.not_lt.mp h), h]

/-- What every write keeps, a program load keeps. -/
theorem loadWords_keeps {P : State → Prop} (keep : ∀ (a : Nat) (v : Byte) (s : State), P s → P (memWrite a v s))
    (words : List (Byte × Byte)) (a : Nat) (s : State) (h : P s) : P (loadWords a words s) := by
  induction words generalizing a s with
  | nil => exact h
  | cons w words ih => exact ih _ _ (keep _ _ _ (keep _ _ _ h))

/-- A write through the contract changes the memory and the diagnostic log at most. -/
theorem memWrite_frame (a : Nat) (v : Byte) (s : State) :
    (memWrite a v s).regs = s.regs ∧ (memWrite a v s).pc = s.pc ∧ (memWrite a v s).run = s.run ∧
      (memWrite a v s).out = s.out ∧ (memWrite a v s).fault = s.fault := by
  unfold memWrite
  split <;> exact ⟨rfl, rfl, rfl, rfl, rfl⟩

end Sys2Proof.Machine
end

