-- ==== Sys2Proof/Laws/Decode.lean ====
section
/-! SUPPORT. The fields of a word put together from its parts, which the decoder's proofs cite. -/

namespace Sys2Proof

/-- Juxtaposition as arithmetic (rule R6: `b0 b1` is `b0 * 256 + b1`). -/
theorem toNat_juxtapose {m n : Nat} (x : BitVec m) (y : BitVec n) :
    (x ++ y).toNat = x.toNat * 2 ^ n + y.toNat := by
  rw [BitVec.toNat_append, ← Nat.shiftLeft_add_eq_or_of_lt y.isLt, Nat.shiftLeft_eq]

theorem toNat_wordOfParts (op : Nibble) (u : BitVec 12) :
    (wordOfParts op u).toNat = op.toNat * 4096 + u.toNat := toNat_juxtapose op u

theorem toNat_operandsRxy (r : RegIdx) (xy : Byte) : (operandsRxy r xy).toNat = r.toNat * 256 + xy.toNat :=
  toNat_juxtapose r xy

theorem toNat_operandsRst (r s t : Nibble) :
    (operandsRst r s t).toNat = r.toNat * 256 + s.toNat * 16 + t.toNat := by
  have h : (operandsRst r s t).toNat = (r ++ s : BitVec 8).toNat * 16 + t.toNat := toNat_juxtapose (r ++ s) t
  have h' : (r ++ s : BitVec 8).toNat = r.toNat * 16 + s.toNat := toNat_juxtapose r s
  omega

theorem toNat_wordOf (b0 b1 : Byte) : (wordOf b0 b1).toNat = b0.toNat * 256 + b1.toNat := toNat_juxtapose b0 b1

/-! ## The fields as arithmetic -/

theorem d0_toNat (w : Word) : (d0 w).toNat = w.toNat / 4096 := by
  have := w.isLt
  simp only [d0, BitVec.extractLsb'_toNat, Nat.shiftRight_eq_div_pow]
  omega

theorem d1_toNat (w : Word) : (d1 w).toNat = w.toNat / 256 % 16 := by
  simp only [d1, BitVec.extractLsb'_toNat, Nat.shiftRight_eq_div_pow]

theorem d2_toNat (w : Word) : (d2 w).toNat = w.toNat / 16 % 16 := by
  simp only [d2, BitVec.extractLsb'_toNat, Nat.shiftRight_eq_div_pow]

theorem d3_toNat (w : Word) : (d3 w).toNat = w.toNat % 16 := by
  simp only [d3, BitVec.extractLsb'_toNat, Nat.shiftRight_zero]

theorem fieldXy_toNat (w : Word) : (fieldXy w).toNat = w.toNat % 256 := by
  simp only [fieldXy, BitVec.extractLsb'_toNat, Nat.shiftRight_zero]

theorem operandBits_toNat (w : Word) : (operandBits w).toNat = w.toNat % 4096 := by
  simp only [operandBits, BitVec.extractLsb'_toNat, Nat.shiftRight_zero]

theorem highByte_toNat (w : Word) : (highByte w).toNat = w.toNat / 256 := by
  have := w.isLt
  simp only [highByte, BitVec.extractLsb'_toNat, Nat.shiftRight_eq_div_pow]
  omega

theorem lowByte_toNat (w : Word) : (lowByte w).toNat = w.toNat % 256 := by
  simp only [lowByte, BitVec.extractLsb'_toNat, Nat.shiftRight_zero]

/-! ## A word and its parts -/

@[simp] theorem d0_parts (op : Nibble) (u : BitVec 12) : d0 (wordOfParts op u) = op := by
  have := u.isLt
  apply BitVec.eq_of_toNat_eq
  rw [d0_toNat, toNat_wordOfParts]
  omega

@[simp] theorem operandBits_parts (op : Nibble) (u : BitVec 12) : operandBits (wordOfParts op u) = u := by
  have := u.isLt
  apply BitVec.eq_of_toNat_eq
  rw [operandBits_toNat, toNat_wordOfParts]
  omega

theorem word_parts (w : Word) : wordOfParts (d0 w) (operandBits w) = w := by
  apply BitVec.eq_of_toNat_eq
  rw [toNat_wordOfParts, d0_toNat, operandBits_toNat]
  omega

@[simp] theorem highByte_wordOf (b0 b1 : Byte) : highByte (wordOf b0 b1) = b0 := by
  have := b1.isLt
  apply BitVec.eq_of_toNat_eq
  rw [highByte_toNat, toNat_wordOf]
  omega

@[simp] theorem lowByte_wordOf (b0 b1 : Byte) : lowByte (wordOf b0 b1) = b1 := by
  have := b1.isLt
  apply BitVec.eq_of_toNat_eq
  rw [lowByte_toNat, toNat_wordOf]
  omega

@[simp] theorem wordOf_highByte_lowByte (w : Word) : wordOf (highByte w) (lowByte w) = w := by
  apply BitVec.eq_of_toNat_eq
  rw [toNat_wordOf, highByte_toNat, lowByte_toNat]
  omega

/-! ## The fields of the operand shapes (rule R62) -/

@[simp] theorem d1_rxy (op : Nibble) (r : RegIdx) (xy : Byte) : d1 (wordOfParts op (operandsRxy r xy)) = r := by
  have := xy.isLt
  have := r.isLt
  apply BitVec.eq_of_toNat_eq
  rw [d1_toNat, toNat_wordOfParts, toNat_operandsRxy]
  omega

@[simp] theorem fieldXy_rxy (op : Nibble) (r : RegIdx) (xy : Byte) :
    fieldXy (wordOfParts op (operandsRxy r xy)) = xy := by
  have := xy.isLt
  apply BitVec.eq_of_toNat_eq
  rw [fieldXy_toNat, toNat_wordOfParts, toNat_operandsRxy]
  omega

@[simp] theorem d1_rst (op r s t : Nibble) : d1 (wordOfParts op (operandsRst r s t)) = r := by
  have := r.isLt
  have := s.isLt
  have := t.isLt
  apply BitVec.eq_of_toNat_eq
  rw [d1_toNat, toNat_wordOfParts, toNat_operandsRst]
  omega

@[simp] theorem d2_rst (op r s t : Nibble) : d2 (wordOfParts op (operandsRst r s t)) = s := by
  have := s.isLt
  have := t.isLt
  apply BitVec.eq_of_toNat_eq
  rw [d2_toNat, toNat_wordOfParts, toNat_operandsRst]
  omega

@[simp] theorem d3_rst (op r s t : Nibble) : d3 (wordOfParts op (operandsRst r s t)) = t := by
  have := t.isLt
  apply BitVec.eq_of_toNat_eq
  rw [d3_toNat, toNat_wordOfParts, toNat_operandsRst]
  omega

/-- The operand bits of any word are those of its three nibbles. -/
theorem operandBits_eq_rst (w : Word) : operandBits w = operandsRst (d1 w) (d2 w) (d3 w) := by
  apply BitVec.eq_of_toNat_eq
  rw [operandBits_toNat, toNat_operandsRst, d1_toNat, d2_toNat, d3_toNat]
  omega

/-- The operand bits of any word are those of its register field and its byte field. -/
theorem operandBits_eq_rxy (w : Word) : operandBits w = operandsRxy (d1 w) (fieldXy w) := by
  apply BitVec.eq_of_toNat_eq
  rw [operandBits_toNat, toNat_operandsRxy, d1_toNat, fieldXy_toNat]
  omega

end Sys2Proof
end

