-- ==== Sys2Proof/Laws/PerInstr.lean ====
section
/-! SUPPORT. Laws of every instruction as syntax, one lemma per constructor. -/

namespace Sys2Proof.Laws.OpcodeNibble

/-- The first nibble of an instruction's word is its opcode, and the rest are its operands (30_encoding.md
rules R62 and R67). -/
def Statement (i : Instr) : Prop := d0 (encode i) = i.opcode ∧ operandBits (encode i) = i.operands

theorem parts (i : Instr) : Statement i := ⟨d0_parts _ _, operandBits_parts _ _⟩

theorem loadi (r : RegIdx) (xy : Byte) : Statement (.loadi r xy) := parts _
theorem load (r : RegIdx) (xy : Byte) : Statement (.load r xy) := parts _
theorem store (r : RegIdx) (xy : Byte) : Statement (.store r xy) := parts _
theorem move (s t : RegIdx) : Statement (.move s t) := parts _
theorem add (r s t : RegIdx) : Statement (.add r s t) := parts _
theorem addf (r s t : RegIdx) : Statement (.addf r s t) := parts _
theorem or (r s t : RegIdx) : Statement (.or r s t) := parts _
theorem and (r s t : RegIdx) : Statement (.and r s t) := parts _
theorem xor (r s t : RegIdx) : Statement (.xor r s t) := parts _
theorem rot (r : RegIdx) (n : Nibble) : Statement (.rot r n) := parts _
theorem jmpeq (r : RegIdx) (xy : Byte) : Statement (.jmpeq r xy) := parts _
theorem halt : Statement .halt := parts _
theorem jmpgt (r : RegIdx) (xy : Byte) : Statement (.jmpgt r xy) := parts _
theorem illegal0 (u : BitVec 12) : Statement (.illegal0 u) := parts _
theorem illegalE (u : BitVec 12) : Statement (.illegalE u) := parts _
theorem illegalF (u : BitVec 12) : Statement (.illegalF u) := parts _

end Sys2Proof.Laws.OpcodeNibble
end

