-- ==== Sys2Proof/Tests/Slice0.lean ====
section
/-! SUPPORT. Tests of one step each, with results from the spec's vectors (95_test_vectors.md, named in each
comment) or from the rule named; and for every statement with hypotheses a state that meets them. -/

namespace Sys2Proof.Tests

open Sys2Proof.Machine

/-! ## Helpers -/

/-- Zero registers and memory but for those given, at a `pc`, running. -/
def small (pc : PcVal) (regs : List (RegIdx × Byte)) (cells : List (Nat × Byte)) : State :=
  setPc pc (cells.foldl (fun s c => setCell c.1 c.2 s) (regs.foldl (fun s r => writeReg r.1 r.2 s) State.reset))

/-- The same with a word at `pc`. -/
def atWord (pc : PcVal) (b0 b1 : Byte) (regs : List (RegIdx × Byte)) (cells : List (Nat × Byte)) : State :=
  setCell pc.toNat b0 (setCell (pc.toNat + 1) b1 (small pc regs cells))

/-- The outcome is a next state with a property. -/
def nextHas (o : Host.Outcome State Fault Refusal) (p : State → Bool) : Bool :=
  match o with
  | .next s => p s
  | .fault _ => false
  | .refused _ => false

/-- A call's outcome is a next state and a reply with a property. -/
def callHas (o : CallOutcome) (p : State → Reply → Bool) : Bool :=
  match o with
  | .next (s, r) => p s r
  | .fault _ => false
  | .refused _ => false

/-! ## Well-formedness: the three rows that are no instruction are refused (rule R68) -/

theorem test_illegal0_not_wellFormed : (Instr.illegal0 0xABC).wellFormed = false := by decide
theorem test_illegalE_not_wellFormed : (Instr.illegalE 0x123).wellFormed = false := by decide
theorem test_illegalF_not_wellFormed : (Instr.illegalF 0x5A5).wellFormed = false := by decide
theorem test_loadi_wellFormed : (Instr.loadi 15 0xFF).wellFormed = true := by decide

/-! ## Decoding: words written bit by bit from the encoding strings of rules R100 to R173 -/

theorem test_decode_loadi : decodeWord 0b0001101001111111#16 = .loadi 10 0x7F := by decide
theorem test_decode_load : decodeWord 0b0010000100011100#16 = .load 1 0x1C := by decide
theorem test_decode_store : decodeWord 0b0011011111111110#16 = .store 7 0xFE := by decide
theorem test_decode_move : decodeWord 0b0100111100010010#16 = .move 1 2 := by decide
theorem test_decode_add : decodeWord 0b0101001100010010#16 = .add 3 1 2 := by decide
theorem test_decode_addf : decodeWord 0b0110001100010010#16 = .addf 3 1 2 := by decide
theorem test_decode_or : decodeWord 0b0111001100010010#16 = .or 3 1 2 := by decide
theorem test_decode_and : decodeWord 0b1000001100010010#16 = .and 3 1 2 := by decide
theorem test_decode_xor : decodeWord 0b1001001100010010#16 = .xor 3 1 2 := by decide
theorem test_decode_rot : decodeWord 0b1010110011110001#16 = .rot 12 1 := by decide
theorem test_decode_jmpeq : decodeWord 0b1011000100110000#16 = .jmpeq 1 0x30 := by decide
theorem test_decode_halt : decodeWord 0b1100000100100011#16 = .halt := by decide
theorem test_decode_jmpgt : decodeWord 0b1101010000011010#16 = .jmpgt 4 0x1A := by decide
theorem test_decode_illegal0 : decodeWord 0b0000101010111100#16 = .illegal0 0xABC := by decide
theorem test_decode_illegalE : decodeWord 0b1110000100100011#16 = .illegalE 0x123 := by decide
theorem test_decode_illegalF : decodeWord 0b1111010110100101#16 = .illegalF 0x5A5 := by decide

/-- The same words as text: L1-5's `10F1`, and V3's word with `d0 = 0`, which renders short (rule R61). -/
theorem test_decode_text : decodeText (wordText 0x10 0xF1) = .ok (.loadi 0 0xF1) := by rfl
theorem test_decode_text_short : wordText 0x0A 0x0C = ['A', '0', 'C'] := by decide

/-- The host's numbering: bit 0 is the word's lowest bit. -/
theorem test_decodeTableWord : decodeTableWord 16 0xD41A = some (.jmpgt 4 0x1A) := by decide
theorem test_withFetchWord :
    nextHas (step (State.reset.withFetchWord 16 0x10F1)) (fun t => t.pc == 0x12 && readReg 0 t == 0xF1) = true := by
  decide

/-! ## The instructions -/

/-- V20. -/
theorem test_loadi : nextHas (step (atWord 0x10 0x1A 0x7F [] []))
    (fun t => readReg 10 t == 0x7F && t.pc == 0x12) = true := by decide

/-- V22. -/
theorem test_load : nextHas (step (atWord 0x10 0x21 0x1C [] [(0x1C, 0x34)]))
    (fun t => readReg 1 t == 0x34 && t.pc == 0x12) = true := by decide

/-- V24: a LOAD of its own first byte. -/
theorem test_load_own_byte : nextHas (step (atWord 0x40 0x25 0x40 [] []))
    (fun t => readReg 5 t == 0x25 && t.out == []) = true := by decide

/-- V25. -/
theorem test_store_output : nextHas (step (atWord 0x10 0x30 0x00 [(0, 0xF1)] []))
    (fun t => Memory.get t.mem 0 == 0xF1 && t.out == [0xF1] && t.pc == 0x12) = true := by decide

/-- V27. -/
theorem test_store_top : nextHas (step (atWord 0x10 0x37 0xFF [(7, 0x55)] []))
    (fun t => Memory.get t.mem 0xFF == 0x55 && t.out == [] && t.diag == []) = true := by decide

/-- V31: the direction is `R[d3] <- R[d2]`. -/
theorem test_move : nextHas (step (atWord 0x10 0x40 0x23 [(2, 0x01), (3, 0x02)] []))
    (fun t => readReg 3 t == 0x01 && readReg 2 t == 0x01 && t.pc == 0x12) = true := by decide

/-- V42: the largest sum that is no fault. -/
theorem test_add_largest : nextHas (step (atWord 0x10 0x53 0x12 [(1, 0x7F), (2, 0x80)] []))
    (fun t => readReg 3 t == 0xFF && t.pc == 0x12 && t.fault == none) = true := by decide

/-- V43: the smallest sum that is a fault. -/
theorem test_add_overflow : nextHas (step (atWord 0x10 0x53 0x12 [(1, 0x80), (2, 0x80)] []))
    (fun t => readReg 3 t == 0 && t.pc == 0x10 && t.run == .running &&
      t.fault == some (.addOverflow 0x10 0x100)) = true := by decide

/-- F12, the worked example of rule R129. -/
theorem test_addf : nextHas (step (atWord 0x10 0x63 0x12 [(1, 0x34), (2, 0x98)] []))
    (fun t => readReg 3 t == 0x32 && t.pc == 0x12) = true := by decide

/-- F10, F15 and F34: a normalising shift into saturation, a tie that keeps the first sign, the second sign. -/
theorem test_floatAdd : floatAdd 0x61 0x6F = 0x7F ∧ floatAdd 0x34 0xB4 = 0x30 ∧ floatAdd 0x9F 0x2F = 0x28 := by
  decide

/-- V60, V62 and V64. -/
theorem test_or : nextHas (step (atWord 0x10 0x73 0x12 [(1, 0xF0), (2, 0x0F)] []))
    (fun t => readReg 3 t == 0xFF && t.pc == 0x12) = true := by decide
theorem test_and : nextHas (step (atWord 0x10 0x83 0x12 [(1, 0xF0), (2, 0x3C)] []))
    (fun t => readReg 3 t == 0x30 && t.pc == 0x12) = true := by decide
theorem test_xor : nextHas (step (atWord 0x10 0x93 0x12 [(1, 0xAA), (2, 0xFF)] []))
    (fun t => readReg 3 t == 0x55 && t.pc == 0x12) = true := by decide

/-- V66, and V72: zero fill, no sign fill. -/
theorem test_rot : nextHas (step (atWord 0x10 0xA1 0x04 [(1, 0x96)] []))
    (fun t => readReg 1 t == 0x09 && t.pc == 0x12) = true := by decide
theorem test_rot_zero_fill : nextHas (step (atWord 0x10 0xAC 0x01 [(12, 0x81)] []))
    (fun t => readReg 12 t == 0x40) = true := by decide

/-- V80 and V81. -/
theorem test_jmpeq_taken : nextHas (step (atWord 0x20 0xB1 0x30 [(1, 0x05), (0, 0x05)] []))
    (fun t => t.pc == 0x32) = true := by decide
theorem test_jmpeq_not_taken : nextHas (step (atWord 0x20 0xB1 0x30 [(1, 0x06), (0, 0x05)] []))
    (fun t => t.pc == 0x22) = true := by decide

/-- V88 and V87: unsigned, and equal is not greater. -/
theorem test_jmpgt_unsigned : nextHas (step (atWord 0x20 0xD1 0x40 [(1, 0x80), (0, 0x7F)] []))
    (fun t => t.pc == 0x42) = true := by decide
theorem test_jmpgt_equal : nextHas (step (atWord 0x16 0xD4 0x1A [(4, 0x01), (0, 0x01)] []))
    (fun t => t.pc == 0x18) = true := by decide

/-- V92. -/
theorem test_halt : nextHas (step (atWord 0x14 0xCF 0xFF [] []))
    (fun t => t.run == .halted && t.pc == 0x14 && t.diag == []) = true := by decide

/-- V3, V4 and V5. -/
theorem test_illegal0 : nextHas (step (atWord 0x20 0x0A 0xBC [] []))
    (fun t => t.run == .halted && t.pc == 0x20 &&
      t.diag == [.decodeFailure 0x20 0x0ABC .malformedWord]) = true := by decide
theorem test_illegalE : nextHas (step (atWord 0x20 0xE0 0x00 [] []))
    (fun t => t.run == .halted && t.diag == [.decodeFailure 0x20 0xE000 .unrecognizedOpcode]) = true := by decide
theorem test_illegalF : nextHas (step (atWord 0x20 0xF5 0xA5 [] []))
    (fun t => t.run == .halted && t.diag == [.decodeFailure 0x20 0xF5A5 .unrecognizedOpcode]) = true := by decide

/-! ## Fetch, reset and the controller -/

/-- V2. -/
theorem test_reset_step : nextHas (step State.reset)
    (fun t => t.run == .halted && t.pc == 0x10 &&
      t.diag == [.decodeFailure 0x10 0x0000 .malformedWord]) = true := by decide

/-- V7: a jump whose second byte lies past the memory. -/
theorem test_fetch_last_cell : nextHas (step (small 0xFF [] [(0xFF, 0xB0)]))
    (fun t => t.pc == 0x02 && t.run == .running && t.diag == [.outOfBoundsAccess .read 0x100]) = true := by decide

/-- V9. -/
theorem test_fetch_outside : nextHas (step (small 0x1FF [] []))
    (fun t => t.pc == 0x1FF && t.run == .halted &&
      t.diag == [.outOfBoundsAccess .read 0x1FF, .outOfBoundsAccess .read 0x200,
        .decodeFailure 0x1FF 0x0000 .malformedWord]) = true := by decide

/-- P1's tokens (rule R90): two bytes a token from 0x10 up, high byte first. -/
theorem test_loadProgram : callHas (call (.loadProgram (tokensOfText
      ['1', '0', 'F', '1', ' ', '3', '0', '0', '0', '\n', 'c', '0', '0', '0'])) State.reset)
    (fun t _ => t.pc == 0x10 && t.mem == [(0x10, 0x10), (0x11, 0xF1), (0x12, 0x30), (0x14, 0xC0)]) = true := by
  decide

/-- Rule R90: the bytes of a token past 0xFF are dropped and reported. -/
theorem test_loadWords_dropped :
    (loadWords 0xFE [(0x10, 0xF1), (0x30, 0x00)] State.reset).mem = [(0xFE, 0x10), (0xFF, 0xF1)] ∧
    (loadWords 0xFE [(0x10, 0xF1), (0x30, 0x00)] State.reset).diag =
      [.outOfBoundsAccess .write 0x100, .outOfBoundsAccess .write 0x101] := by decide

/-- Rule R90: a token of three characters makes the call refused. -/
theorem test_loadProgram_refused : call (.loadProgram [['1', '0', 'F']]) State.reset = .refused .badToken := rfl

/-- Rule R57: a controller write to cell 0x00 emits nothing. -/
theorem test_writeMem_silent : callHas (call (.writeMem 0x00 0x2A) State.reset)
    (fun t _ => Memory.get t.mem 0 == 0x2A && t.out == []) = true := by decide

/-- Rule R205's codes. -/
theorem test_diagnostic_codes : (Diagnostic.outOfBoundsAccess .read 0x100).code = 1 ∧
    (Diagnostic.outOfBoundsAccess .write 0x100).code = 2 ∧
    (Diagnostic.decodeFailure 0 0 .malformedWord).code = 3 ∧
    (Diagnostic.decodeFailure 0 0 .unrecognizedOpcode).code = 4 ∧
    Diagnostic.malformedOperandDigit.code = 5 := by decide

/-! ## Witnesses: the hypotheses of the statements are met -/

theorem witness_FirstNibbleSelectsInstruction :
    (1 ≤ (0x10 : Byte).toNat / 16 ∧ (0xDF : Byte).toNat / 16 ≤ 13) ∧ (0x0F : Byte).toNat / 16 = 0 ∧
    14 ≤ (0xE0 : Byte).toNat / 16 := by decide

theorem witness_StepRunsDecodedInstruction :
    ((small 0xFE [] []).run = .running ∧ (small 0xFE [] []).fault = none ∧ (small 0xFE [] []).pc.toNat + 1 < 256) ∧
    ((small 0xFF [] []).run = .running ∧ (small 0xFF [] []).fault = none ∧ (small 0xFF [] []).pc.toNat = 255) ∧
    ((small 0x100 [] []).run = .running ∧ (small 0x100 [] []).fault = none ∧
      256 ≤ (small 0x100 [] []).pc.toNat) := by decide

theorem witness_StepOutsideMemoryHalts :
    (small 0x1FF [] []).run = .running ∧ (small 0x1FF [] []).fault = none ∧ 256 ≤ (small 0x1FF [] []).pc.toNat := by
  decide

theorem witness_StepStopsExactlyAtFaultMark :
    (setFault (.addOverflow 0x10 0x100) State.reset).fault = some (.addOverflow 0x10 0x100) ∧
    State.reset.fault = none := by decide

theorem witness_PcAdvanced : (small 0xFF [] []).pc.toNat ≤ 0xFF := by decide

theorem witness_AddWritesSumThatFits :
    (readReg 1 (small 0x10 [(1, 0x7F), (2, 0x80)] [])).toNat +
      (readReg 2 (small 0x10 [(1, 0x7F), (2, 0x80)] [])).toNat ≤ 255 := by decide

theorem witness_AddOverflowSetsMarkOnly :
    255 < (readReg 1 (small 0x10 [(1, 0x80), (2, 0x80)] [])).toNat +
      (readReg 2 (small 0x10 [(1, 0x80), (2, 0x80)] [])).toNat := by decide

theorem witness_JmpeqJumpsWhenEqualToR0 :
    readReg 1 (small 0x10 [(1, 5), (0, 5)] []) = readReg 0 (small 0x10 [(1, 5), (0, 5)] []) ∧
    readReg 1 (small 0x10 [(1, 6), (0, 5)] []) ≠ readReg 0 (small 0x10 [(1, 6), (0, 5)] []) := by decide

theorem witness_JmpgtJumpsWhenAboveR0 :
    (readReg 0 (small 0x10 [(1, 0x80), (0, 0x7F)] [])).toNat <
      (readReg 1 (small 0x10 [(1, 0x80), (0, 0x7F)] [])).toNat ∧
    ¬ (readReg 0 (small 0x10 [(1, 0x7F), (0, 0x7F)] [])).toNat <
      (readReg 1 (small 0x10 [(1, 0x7F), (0, 0x7F)] [])).toNat := by decide

theorem witness_HaltStopsTheEngine :
    (atWord 0x10 0xC0 0x00 [] []).run = .running ∧ (atWord 0x10 0xC0 0x00 [] []).fault = none ∧
    fetchedInstr (atWord 0x10 0xC0 0x00 [] []) = .halt ∧
    nextHas (step (atWord 0x10 0xC0 0x00 [] [])) (fun _ => true) = true := by decide

theorem witness_FloatAddCommutesOffTies :
    ((0x34 : Byte).toNat / 128 = (0x18 : Byte).toNat / 128) ∧
    (0x34 : Byte).toNat % 16 / 2 ^ (max ((0x34 : Byte).toNat / 16 % 8) ((0x98 : Byte).toNat / 16 % 8) -
        (0x34 : Byte).toNat / 16 % 8) ≠
      (0x98 : Byte).toNat % 16 / 2 ^ (max ((0x34 : Byte).toNat / 16 % 8) ((0x98 : Byte).toNat / 16 % 8) -
        (0x98 : Byte).toNat / 16 % 8) := by decide

theorem witness_FloatExponentSevenSaturates :
    (floatAdd 0x6F 0x6F).toNat / 16 % 8 = 7 ∧ (0x70 : Byte).toNat / 16 % 8 = 7 ∧ (0xFF : Byte).toNat / 16 % 8 = 7 := by
  decide

theorem witness_MemoryContractReadAndWrite : (255 : Nat) < 256 ∧ (256 : Nat) ≤ 256 := by decide

/-- A STORE onto the next instruction's first byte, one onto its second, and one at the last cell. -/
theorem witness_StoreIsSeenByNextFetch :
    ((atWord 0x10 0x31 0x12 [] []).pc.toNat ≤ 0xFF ∧ fetchedInstr (atWord 0x10 0x31 0x12 [] []) = .store 1 0x12 ∧
      nextHas (step (atWord 0x10 0x31 0x12 [] [])) (fun _ => true) = true) ∧
    (fetchedInstr (atWord 0x10 0x31 0x13 [] []) = .store 1 0x13 ∧
      nextHas (step (atWord 0x10 0x31 0x13 [] [])) (fun _ => true) = true) ∧
    ((small 0xFF [] [(0xFF, 0x31)]).pc.toNat ≤ 0xFF ∧ fetchedInstr (small 0xFF [] [(0xFF, 0x31)]) = .store 1 0x00 ∧
      nextHas (step (small 0xFF [] [(0xFF, 0x31)])) (fun _ => true) = true) := by decide

/-- A state with the invariant, a store in it, whose step answers a next state. -/
theorem witness_StepKeepsInvariant :
    ∃ t, (atWord 0x10 0x37 0xFF [(7, 0x55)] []).MemoryCanonical ∧ (atWord 0x10 0x37 0xFF [(7, 0x55)] []).PcBounded ∧
      step (atWord 0x10 0x37 0xFF [(7, 0x55)] []) = .next t :=
  ⟨_, rfl, show (16 : Nat) ≤ 257 by decide, rfl⟩

/-- Steps that move `pc` at its edges: a plain advance from 0xFE, a taken jump to 0xFF; and the largest `pc`. -/
theorem witness_StepNeverWrapsPc :
    (∃ t, step (small 0xFE [] [(0xFE, 0x11)]) = .next t ∧ t.pc.toNat = 0xFE + 2) ∧
    (∃ t, step (atWord 0x10 0xB0 0xFF [] []) = .next t ∧ t.pc.toNat = 0xFF + 2) ∧
    (∃ t, step (small 0x1FF [] []) = .next t ∧ t.pc.toNat = 0x1FF) :=
  ⟨⟨_, rfl, rfl⟩, ⟨_, rfl, rfl⟩, ⟨_, rfl, rfl⟩⟩

theorem witness_RegisterTableHolds :
    destination (fetchedInstr (atWord 0x10 0x53 0x12 [] [])) ≠ some 4 ∧
    (∃ t, step (atWord 0x10 0x53 0x12 [] []) = .next t) ∧ readsReg (.add 3 1 2) 3 = false ∧
    (∃ t, exec (.add 3 1 2) State.reset = .next t) :=
  ⟨by decide, ⟨_, rfl⟩, by decide, ⟨_, rfl⟩⟩

theorem witness_OnlyStoreChangesMemory :
    (∃ t, step (atWord 0x10 0x31 0x80 [] []) = .next t) ∧
    ∀ (r : RegIdx) (xy : Byte), fetchedInstr (atWord 0x10 0x31 0x80 [] []) = .store r xy → 0x81 ≠ addressOperand xy := by
  refine ⟨⟨_, rfl⟩, fun r xy h => ?_⟩
  have hw : fetchedInstr (atWord 0x10 0x31 0x80 [] []) = .store 1 0x80 := by decide
  rw [hw] at h
  obtain ⟨-, rfl⟩ := Instr.store.inj h
  decide

theorem witness_OnlyStoreToCellZeroEmitsOutput :
    (∃ t, step (atWord 0x10 0x30 0x00 [(0, 0xF1)] []) = .next t) ∧ Call.start ≠ .fetchAndExecute ∧
    ∃ t reply, call .start State.reset = .next (t, reply) :=
  ⟨⟨_, rfl⟩, by decide, ⟨_, _, rfl⟩⟩

theorem witness_StepAppendsBoundedDiagnostics : ∃ t, step (small 0x100 [] []) = .next t := ⟨_, rfl⟩

theorem witness_RunStateMachine :
    ((atWord 0x10 0xC0 0x00 [] []).run = .running ∧ (atWord 0x10 0xC0 0x00 [] []).fault = none ∧
      nextHas (step (atWord 0x10 0xC0 0x00 [] [])) (fun t => t.run == .halted) = true) ∧
    (haltEngine State.reset).run = .halted ∧ (haltEngine State.reset).fault = none := by decide

theorem witness_FaultMarkOnlyFromAddOverflow :
    (∃ t, (atWord 0x10 0x53 0x12 [(1, 0x80), (2, 0x80)] []).run = .running ∧
      (atWord 0x10 0x53 0x12 [(1, 0x80), (2, 0x80)] []).fault = none ∧
      step (atWord 0x10 0x53 0x12 [(1, 0x80), (2, 0x80)] []) = .next t) ∧
    (∃ t reply, (setFault (.addOverflow 0x10 0x100) State.reset).fault ≠ none ∧
      call .halt (setFault (.addOverflow 0x10 0x100) State.reset) = .next (t, reply)) :=
  ⟨⟨_, rfl, rfl, rfl⟩, ⟨_, _, by decide, rfl⟩⟩

theorem witness_ChannelsDoNotInfluenceStep : ∃ t, step (atWord 0x10 0x30 0x00 [(0, 0xF1)] []) = .next t := ⟨_, rfl⟩

theorem witness_ChannelsOnlyGrowAlongRuns :
    ∃ t, SafeRun 1 (atWord 0x10 0x30 0x00 [(0, 0xF1)] []) t :=
  ⟨_, .more 0 _ _ _ rfl rfl (.refl _ rfl)⟩

theorem witness_FinalStateNeverChanges :
    ∃ t, (haltEngine State.reset).Final ∧ SafeRun 1 (haltEngine State.reset) t :=
  ⟨_, ⟨rfl, rfl⟩, .more 0 _ _ _ rfl rfl (.refl _ rfl)⟩

/-- The token `10F1` and its digits. -/
theorem witness_token : HexToken ['1', '0', 'F', '1'] ∧ HexDigit '1' 1 ∧ HexDigit '0' 0 ∧ HexDigit 'F' 15 ∧
    HexDigit 'f' 15 :=
  ⟨⟨'1', '0', 'F', '1', 1, 0, 15, 1, rfl, .inl rfl, .inl rfl, .inl rfl, .inl rfl⟩, .inl rfl, .inl rfl, .inl rfl,
    .inr rfl⟩

/-- A program of 121 tokens: token 119 fills the last two cells, token 120's bytes are past the memory, and 0x0F and
0x100 are addresses the load leaves. -/
theorem witness_LoadProgramPlacesWords :
    (∀ token ∈ List.replicate 121 ['1', '0', 'F', '1'], HexToken token) ∧
    (List.replicate 121 ['1', '0', 'F', '1'])[119]? = some ['1', '0', 'F', '1'] ∧ 0x11 + 2 * 119 = 255 ∧
    (List.replicate 121 ['1', '0', 'F', '1'])[120]? = some ['1', '0', 'F', '1'] ∧ 0x10 + 2 * 120 = 256 ∧
    0x0F < 0x10 ∧ 256 ≤ 0x100 := by
  refine ⟨fun token h => ?_, rfl, rfl, rfl, rfl, by decide, by decide⟩
  rw [List.eq_of_mem_replicate h]
  exact witness_token.1

theorem witness_RegisterPcAndChannelAccessors :
    (15 < 16 ∧ 255 < 256) ∧ 256 ≤ 256 ∧ 16 ≤ 16 ∧ 511 < 512 ∧ 512 ≤ 512 := by decide

theorem witness_MemoryAccessors : (255 < 256 ∧ 255 < 256) ∧ 256 ≤ 256 ∧ 256 ≤ 256 := by decide

theorem witness_ControllerKeepsMemoryCanonical :
    ∃ t reply, State.reset.MemoryCanonical ∧ call (.loadProgram [['1', '0', 'F', '1']]) State.reset = .next (t, reply) :=
  ⟨_, _, rfl, rfl⟩

end Sys2Proof.Tests
end

section
/-! The memory family (20_memory.md): the memory's contract in and out of range, and a STORE as the next fetch
sees it. -/

namespace Sys2Proof.Machine

/-! ## A fetch and a write, in the bytes a read gives -/

theorem memRead_byte (a : Nat) (s : State) : (memRead a s).1 = byteSeen s a := by
  rcases Nat.lt_or_ge a 256 with ha | ha
  · rw [memRead_inRange ha, byteSeen, if_pos ha]
  · rw [memRead_outOfRange ha, byteSeen, if_neg (Nat.not_lt.mpr ha)]

/-- A read changes no cell, so it leaves the byte seen at every address. -/
theorem byteSeen_memRead (a : Nat) (s : State) (b : Nat) : byteSeen (memRead a s).2 b = byteSeen s b := by
  unfold memRead
  split <;> rfl

/-- A fetch gives what reads of `pc` and of `pc + 1` give (rule R60). -/
theorem fetch_bytes (s : State) : (fetch s).1 = (byteSeen s s.pc.toNat, byteSeen s (s.pc.toNat + 1)) := by
  simp only [fetch, memRead_byte, byteSeen_memRead]

/-- After one cell inside the memory is set, a read sees the byte there and the old bytes elsewhere. -/
theorem byteSeen_of_mem_set {s t : State} {x : Nat} {v : Byte} (hmem : t.mem = Memory.set s.mem x v)
    (hx : x < 256) (a : Nat) : byteSeen t a = if x = a then v else byteSeen s a := by
  unfold byteSeen
  rw [hmem, get_set]
  by_cases ha : x = a
  · subst ha; simp [hx]
  · simp [ha, Ne.symm ha]

/-- The step of a fetched STORE: the register's byte goes to the addressed cell, and `pc` two past. -/
theorem step_store {s : State} {r : RegIdx} {xy : Byte} (henabled : s.Enabled)
    (hstore : fetchedInstr s = .store r xy) :
    step s = .next (setPc (advance s.pc.toNat)
      (storeByte (addressOperand xy) (readReg r s) (fetch s).2)) := by
  rw [step_enabled henabled, hstore, exec_store, fetch_pc, readReg_fetch]

/-! ## The obligations -/

/-- Settles O27: below 256 a read is the cell's and a write is one set of the cell, which `get_set` describes; from
256 up each is its report alone. -/
theorem memoryContractReadAndWrite : Obligations.MemoryContractReadAndWrite := by
  intro a v s
  constructor
  · intro ha
    rw [memRead_inRange ha, memWrite_inRange ha]
    exact ⟨rfl, get_set_self s.mem a v, fun b hb => get_set_other hb s.mem v, fun _ => rfl, ⟨rfl, rfl⟩,
      ⟨rfl, rfl⟩, rfl⟩
  · intro ha
    exact ⟨memRead_outOfRange ha s, memWrite_outOfRange ha v s⟩

/-- Settles O28: the step sets one cell and moves `pc` two past, and the next fetch reads the memory that leaves. -/
theorem storeIsSeenByNextFetch : Obligations.StoreIsSeenByNextFetch := by
  intro s t r xy hrun hfault hpc hstore hstep
  rw [step_store ⟨hrun, hfault⟩ hstore] at hstep
  obtain rfl := Host.Outcome.next.inj hstep
  have hmem : (setPc (advance s.pc.toNat) (storeByte (addressOperand xy) (readReg r s) (fetch s).2)).mem =
      Memory.set s.mem xy.toNat (readReg r s) := by simp
  have hnext : (advance s.pc.toNat).toNat = s.pc.toNat + 2 := advance_toNat (by omega)
  refine ⟨?_, hnext, ?_⟩
  · rw [hmem, get_set_self]
  · rw [fetch_bytes, setPc_pc, hnext, byteSeen_of_mem_set hmem xy.isLt, byteSeen_of_mem_set hmem xy.isLt]

end Sys2Proof.Machine
end

section
/-! The encoding family (30_encoding.md): the decoder undoes the encoder, the sample words of the opcode table, and
what a fetch reads and reports. -/

namespace Sys2Proof

/-! ## The decoder after the encoder -/

theorem d0_encode (i : Instr) : d0 (encode i) = i.opcode := d0_parts _ _

/-- The opcode selects the instruction's own row (rule R67), and each field of the row's shape reads back the operand
written there (rule R62). -/
theorem decodeWord_encode (i : Instr) : decodeWord (encode i) = i := by
  rw [decodeWord, d0_encode, encode]
  cases i with
  | loadi r xy | load r xy | store r xy | jmpeq r xy | jmpgt r xy =>
    simp [Instr.opcode, Instr.operands, d1_rxy, fieldXy_rxy]
  | add r s t | addf r s t | or r s t | and r s t | xor r s t =>
    simp [Instr.opcode, Instr.operands, d1_rst, d2_rst, d3_rst]
  | move s t => simp [Instr.opcode, Instr.operands, d2_rst, d3_rst]
  | rot r n => simp [Instr.opcode, Instr.operands, d1_rst, d3_rst]
  | halt => rfl
  | illegal0 u | illegalE u | illegalF u => simp [Instr.opcode, Instr.operands, operandBits_parts]

/-- Two bytes that lie in memory as an instruction's canonical word decode to it. -/
theorem decodeBytes_of_wordOf_eq {b0 b1 : Byte} {i : Instr} (h : wordOf b0 b1 = encode i) : decodeBytes b0 b1 = i := by
  rw [decodeBytes, h, decodeWord_encode]

/-! ## The nibbles of two bytes -/

theorem d0_wordOf_toNat (b0 b1 : Byte) : (d0 (wordOf b0 b1)).toNat = b0.toNat / 16 := by
  have := b1.isLt
  rw [d0_toNat, toNat_wordOf]
  omega

theorem d1_wordOf_toNat (b0 b1 : Byte) : (d1 (wordOf b0 b1)).toNat = b0.toNat % 16 := by
  have := b1.isLt
  rw [d1_toNat, toNat_wordOf]
  omega

theorem d2_wordOf_toNat (b0 b1 : Byte) : (d2 (wordOf b0 b1)).toNat = b1.toNat / 16 := by
  have := b1.isLt
  rw [d2_toNat, toNat_wordOf]
  omega

theorem d3_wordOf_toNat (b0 b1 : Byte) : (d3 (wordOf b0 b1)).toNat = b1.toNat % 16 := by
  rw [d3_toNat, toNat_wordOf]
  omega

end Sys2Proof

namespace Sys2Proof.Machine

/-! ## What a fetch reports -/

/-- A fetch reports `pc` and `pc + 1` in that order, each only if it lies outside the memory (rules R41 and R60). -/
theorem fetch_state (s : State) :
    (fetch s).2 = { s with diag := s.diag ++
      (([s.pc.toNat, s.pc.toNat + 1].filter fun a => decide (256 ≤ a)).map (.outOfBoundsAccess .read ·)) } := by
  rcases fetch_cases s with ⟨h, hfetch⟩ | ⟨h, hfetch⟩ | ⟨h, hfetch⟩
  · have hpc : ¬ 256 ≤ s.pc.toNat := by omega
    have hnext : ¬ 256 ≤ s.pc.toNat + 1 := by omega
    simp [hfetch, hpc, hnext]
  · simp [hfetch, h, report]
  · have hnext : 256 ≤ s.pc.toNat + 1 := by omega
    simp [hfetch, h, hnext, report]

/-! ## The obligations -/

/-- Settles O2: a case for each operand shape, in `decodeWord_encode`. -/
theorem decodeEncodeRoundTrip : Obligations.DecodeEncodeRoundTrip := decodeWord_encode

/-- Settles O6: the bytes are two reads, the reports are `fetch_state`'s, and the word is juxtaposition. -/
theorem fetchReadsTwoConsecutiveBytes : Obligations.FetchReadsTwoConsecutiveBytes := fun s =>
  ⟨fetch_bytes s, fetch_state s, fun b0 b1 => ⟨toNat_wordOf b0 b1, d0_wordOf_toNat b0 b1, d1_wordOf_toNat b0 b1,
    d2_wordOf_toNat b0 b1, d3_wordOf_toNat b0 b1⟩⟩

/-- Settles O1: each sample is the canonical word of its instruction, so the round trip of O2 decodes it. -/
theorem sampleWordsDecode : Obligations.SampleWordsDecode := by
  and_intros <;> exact decodeBytes_of_wordOf_eq (by decide)

end Sys2Proof.Machine
end

section
/-! The engine-cycle family (40_engine_cycle.md): an enabled step is the execution of what its fetch decodes to. -/

namespace Sys2Proof.Machine

/-- An enabled step executes the instruction of the two fetched bytes on the state after the fetch (rule R82). -/
theorem step_of_fetch_eq {s t : State} {b0 b1 : Byte} (henabled : s.Enabled) (hfetch : fetch s = ((b0, b1), t)) :
    step s = exec (decodeBytes b0 b1) t := by
  rw [step_enabled henabled, fetchedInstr, hfetch]

/-- The word read from outside the memory is the invalid word 0x0000 (rules R41 and R173). -/
theorem decodeBytes_zero_zero : decodeBytes 0x00 0x00 = .illegal0 0x000 := decodeBytes_of_wordOf_eq (by decide)

/-- Two reports in a row append their records to the log in the order they were made. -/
theorem report_report (d e : Diagnostic) (s : State) :
    report e (report d s) = { s with diag := s.diag ++ [d, e] } := by
  simp [report]

/-! ## The obligation -/

/-- Settles O7: one of `fetch_inside`, `fetch_lastCell` and `fetch_outside` gives the fetch of each place of `pc`, and
the step executes what was fetched. -/
theorem stepRunsDecodedInstruction : Obligations.StepRunsDecodedInstruction := by
  intro s hrun hfault
  have henabled : s.Enabled := ⟨hrun, hfault⟩
  refine ⟨fun hinside => ?_, fun hlast => ?_, fun houtside => ?_⟩
  · exact step_of_fetch_eq henabled (fetch_inside hinside)
  · exact step_of_fetch_eq henabled (fetch_lastCell hlast)
  · rw [step_of_fetch_eq henabled (fetch_outside houtside), decodeBytes_zero_zero, report_report]

end Sys2Proof.Machine
end

section
/-! The data-movement family (41_data_movement.md): LOADI and LOAD write one register; STORE writes one cell, and the
output channel exactly at cell 0x00. -/

namespace Sys2Proof.Machine

/-! ## What a STORE leaves of its cell and of the rest -/

/-- The stored cell reads as the byte stored. -/
theorem get_storeByte_self (xy v : Byte) (s : State) :
    Memory.get (storeByte (addressOperand xy) v s).mem (addressOperand xy) = v := by
  rw [storeByte_mem, addressOperand, get_set_self]

/-- Every cell but the stored one reads as before. -/
theorem storeByte_memoryKeptBut (xy v : Byte) (s : State) :
    MemoryKeptBut (addressOperand xy) s (storeByte (addressOperand xy) v s) := by
  intro a ha
  rw [storeByte_mem]
  exact get_set_other ha s.mem v

theorem storeByte_regsKept (xy v : Byte) (s : State) : RegsKept s (storeByte (addressOperand xy) v s) :=
  readReg_congr (storeByte_regs xy v s)

theorem storeByte_modeKept (xy v : Byte) (s : State) : ModeKept s (storeByte (addressOperand xy) v s) :=
  ⟨storeByte_run xy v s, storeByte_fault xy v s⟩

/-- An instruction that retires to the next one leaves `pc` two past (rule R83), whatever else it did. -/
theorem pcAdvanced_setPc (s t : State) : PcAdvanced s (setPc (advance s.pc.toNat) t) :=
  fun _ => advance_toNat (by omega)

/-! ## The obligations -/

/-- Settles O10: the word is the encoding of LOADI, whose meaning is one register write with the literal. -/
theorem loadiWritesLiteral : Obligations.LoadiWritesLiteral := fun r xy =>
  ⟨decodeWord_encode (.loadi r xy), fun s => ⟨_, exec_loadi r xy s, regResult_of_write r xy s⟩⟩

/-- Settles O11: the word is the encoding of LOAD, whose address is never out of range, so that its meaning is one
register write with the cell's byte. -/
theorem loadReadsMemory : Obligations.LoadReadsMemory := fun r xy =>
  ⟨decodeWord_encode (.load r xy), fun s =>
    ⟨_, exec_load r xy s, regResult_of_write r (Memory.get s.mem xy.toNat) s⟩⟩

/-- Settles O12: the word is the encoding of STORE, whose meaning is `storeByte` and then `pc` two past, which leaves
what `storeByte` did as it is. -/
theorem storeWritesMemoryAndOutput : Obligations.StoreWritesMemoryAndOutput := by
  intro r xy
  refine ⟨decodeWord_encode (.store r xy), rfl, fun s => ⟨_, exec_store r xy s, ?_⟩⟩
  exact ⟨get_storeByte_self xy _ s, storeByte_memoryKeptBut xy _ s, storeByte_out xy _ s, storeByte_diag xy _ s,
    storeByte_regsKept xy _ s, storeByte_modeKept xy _ s, pcAdvanced_setPc s _⟩

end Sys2Proof.Machine
end

section
/-! The floating-point family (42_arithmetic.md sections 2 to 4): each stage of `floatAdd` as arithmetic on natural
numbers, and their composition. -/

namespace Sys2Proof.Machine

/-! ## The fields of a byte (rule R121) -/

theorem unpackFloat_sign_toNat (a : Byte) : (unpackFloat a).sign.toNat = a.toNat / 128 := by
  have hbit : (unpackFloat a).sign.toNat = a.toNat / 2 ^ 7 % 2 := Nat.toNat_testBit a.toNat 7
  have := a.isLt
  omega

theorem unpackFloat_exp (a : Byte) : (unpackFloat a).exp = a.toNat / 16 % 8 := by
  simp only [unpackFloat, BitVec.extractLsb'_toNat, Nat.shiftRight_eq_div_pow]

theorem unpackFloat_man (a : Byte) : (unpackFloat a).man = a.toNat % 16 := by
  simp only [unpackFloat, BitVec.extractLsb'_toNat, Nat.shiftRight_zero]

/-- Sign bits are equal when their numbers are, which is how the rule's arithmetic compares them. -/
theorem sign_toNat_inj {s1 s2 : Bool} : s1.toNat = s2.toNat ↔ s1 = s2 :=
  (Function.LeftInverse.injective Bool.ofNat_toNat).eq_iff

/-! ## Alignment and sum (rules R122 to R124) -/

/-- One formula for the three branches: the operand of the larger exponent is divided by one. -/
theorem alignMantissas_eq (x y : FloatFields) :
    alignMantissas x y =
      (x.man / 2 ^ (max x.exp y.exp - x.exp), y.man / 2 ^ (max x.exp y.exp - y.exp), max x.exp y.exp) := by
  unfold alignMantissas
  rcases Nat.lt_trichotomy x.exp y.exp with h | h | h
  · simp [h, Nat.max_eq_right h.le, Nat.shiftRight_eq_div_pow]
  · simp [h]
  · simp [h, Nat.not_lt.mpr h.le, Nat.max_eq_left h.le, Nat.shiftRight_eq_div_pow]

/-- A byte's mantissa has four bits, and alignment only divides it. -/
theorem alignMantissas_unpackFloat_le (a b : Byte) :
    (alignMantissas (unpackFloat a) (unpackFloat b)).1 ≤ 15 ∧
      (alignMantissas (unpackFloat a) (unpackFloat b)).2.1 ≤ 15 := by
  have man_le (c : Byte) (k : Nat) : (unpackFloat c).man / 2 ^ k ≤ 15 :=
    (Nat.div_le_self _ _).trans (by rw [unpackFloat_man]; omega)
  rw [alignMantissas_eq]
  exact ⟨man_le a _, man_le b _⟩

theorem combineMantissas_man (s1 s2 : Bool) (m1 m2 : Nat) :
    (combineMantissas s1 m1 s2 m2).2 =
      if s1.toNat = s2.toNat then m1 + m2 else if m2 > m1 then m2 - m1 else m1 - m2 := by
  simp only [combineMantissas, sign_toNat_inj]
  split <;> rfl

theorem combineMantissas_sign_toNat (s1 s2 : Bool) (m1 m2 : Nat) :
    (combineMantissas s1 m1 s2 m2).1.toNat =
      if s1.toNat ≠ s2.toNat ∧ m2 > m1 then s2.toNat else s1.toNat := by
  by_cases hs : s1 = s2
  · simp [combineMantissas, hs]
  · by_cases hm : m2 > m1 <;> simp [combineMantissas, sign_toNat_inj, hs, hm]

/-- Neither a sum nor a difference of two four-bit mantissas is above 30, so one halving brings it to 15 or less. -/
theorem combineMantissas_man_le {m1 m2 : Nat} (h1 : m1 ≤ 15) (h2 : m2 ≤ 15) (s1 s2 : Bool) :
    (combineMantissas s1 m1 s2 m2).2 ≤ 30 := by
  rw [combineMantissas_man]
  split_ifs <;> omega

/-! ## Normalisation, saturation and packing (rules R125, R126 and R128) -/

theorem normaliseOnce_eq (m e : Nat) :
    normaliseOnce m e = (if m > 15 then m / 2 else m, if m > 15 then e + 1 else e) := by
  unfold normaliseOnce
  split <;> rfl

theorem normaliseOnce_man_le {m : Nat} (h : m ≤ 30) (e : Nat) : (normaliseOnce m e).1 ≤ 15 := by
  rw [normaliseOnce_eq]
  dsimp only
  split <;> omega

/-- Fields that fit their widths do not overlap, so that packing them is a sum. -/
theorem packFloat_toNat {m e : Nat} (hm : m ≤ 15) (he : e ≤ 7) (sign : Bool) :
    (packFloat sign m e).toNat = sign.toNat * 128 + e * 16 + m := by
  have hs := sign.toNat_le
  have hmask : m &&& 0xF = m := (Nat.and_two_pow_sub_one_eq_mod m 4).trans (Nat.mod_eq_of_lt (by omega))
  have hhigh : sign.toNat <<< 7 ||| e <<< 4 = (sign.toNat * 8 + e) <<< 4 := by
    rw [← Nat.shiftLeft_add_eq_or_of_lt (by rw [Nat.shiftLeft_eq]; omega)]
    simp only [Nat.shiftLeft_eq]
    omega
  have hlow : m < 2 ^ 4 := by omega
  rw [packFloat, hmask, hhigh, ← Nat.shiftLeft_add_eq_or_of_lt hlow, Nat.shiftLeft_eq, BitVec.toNat_ofNat]
  omega

theorem packFloat_saturate_toNat {m : Nat} (hm : m ≤ 15) (sign : Bool) (e : Nat) :
    (packFloat sign (saturate m e).1 (saturate m e).2).toNat =
      if e ≥ 7 then sign.toNat * 128 + 127 else sign.toNat * 128 + e * 16 + m := by
  unfold saturate
  split
  · exact packFloat_toNat le_rfl le_rfl sign
  · exact packFloat_toNat hm (by omega) sign

/-! ## The obligation -/

/-- Settles O23: the result is a packed saturation of a normalised mantissa, which is at most 15; each stage then
is the arithmetic its own lemma gives. -/
theorem floatAddFollowsFieldArithmetic : Obligations.FloatAddFollowsFieldArithmetic := by
  intro a b
  obtain ⟨hman1, hman2⟩ := alignMantissas_unpackFloat_le a b
  rw [floatAdd, packFloat_saturate_toNat (normaliseOnce_man_le (combineMantissas_man_le hman1 hman2 _ _) _)]
  simp only [normaliseOnce_eq, combineMantissas_man, combineMantissas_sign_toNat, alignMantissas_eq,
    unpackFloat_sign_toNat, unpackFloat_exp, unpackFloat_man]

end Sys2Proof.Machine
end

section
/-! The logic and shift family (43_logic_shift.md): each instruction writes one register, whose value OR, AND and XOR
make bit by bit and ROT makes by a division. -/

namespace Sys2Proof.Machine

/-! ## ROT's word and ROT's value (rule R153) -/

/-- A word with opcode A decodes to ROT of its first and last operand nibble; the middle one goes to no field. -/
theorem decodeWord_rot (r u n : Nibble) : decodeWord (wordOfParts 0xA#4 (operandsRst r u n)) = .rot r n := by
  have hopcode : (d0 (wordOfParts 0xA#4 (operandsRst r u n))).toNat = 0xA := by rw [d0_parts]; rfl
  simp only [decodeWord, hopcode, d1_rst, d3_rst]

/-- Zeros come in at the top and the bits shifted out are lost, so a right shift divides by a power of two. -/
theorem toNat_shiftRight_eq_div (x : Byte) (k : Nat) : (x >>> k).toNat = x.toNat / 2 ^ k := by
  rw [BitVec.toNat_ushiftRight, Nat.shiftRight_eq_div_pow]

/-! ## The obligations -/

/-- Settles O17: the words are the encodings of OR, AND and XOR, whose meanings are one register write of a value with
a known bit at each place. -/
theorem logicInstructionsCombineBits : Obligations.LogicInstructionsCombineBits := by
  intro r a b
  refine ⟨decodeWord_encode (.or r a b), decodeWord_encode (.and r a b), decodeWord_encode (.xor r a b), fun s => ?_⟩
  refine ⟨⟨_, _, exec_or r a b s, regResult_of_write r _ s, fun k _ => ?_⟩,
    ⟨_, _, exec_and r a b s, regResult_of_write r _ s, fun k _ => ?_⟩,
    ⟨_, _, exec_xor r a b s, regResult_of_write r _ s, fun k _ => ?_⟩⟩
  · exact BitVec.getLsbD_or
  · exact BitVec.getLsbD_and
  · exact BitVec.getLsbD_xor

/-- Settles O18: `decodeWord_rot` decodes the word, and the meaning is one register write of the shifted value. -/
theorem rotShiftsRightLogically : Obligations.RotShiftsRightLogically := fun r u n =>
  ⟨decodeWord_rot r u n, fun s =>
    ⟨_, _, exec_rot r n s, toNat_shiftRight_eq_div (readReg r s) n.toNat, regResult_of_write r _ s⟩⟩

end Sys2Proof.Machine
end

section
/-! The control-transfer family (44_control_transfer.md): a conditional jump moves `pc` alone, on either branch. -/

namespace Sys2Proof.Machine

/-! ## The obligation -/

/-- Settles O19: the word is the encoding of JMPEQ, whose meaning is one move of `pc`, to two past the target if the
register equals R0 (`advance_byte_toNat`) and to two past the jump itself if not (`pcAdvanced_setPc`). -/
theorem jmpeqJumpsWhenEqualToR0 : Obligations.JmpeqJumpsWhenEqualToR0 := by
  intro r xy
  refine ⟨decodeWord_encode (.jmpeq r xy), fun s => ?_⟩
  by_cases hequal : readReg r s = readReg 0 s
  · exact ⟨_, exec_jmpeq_taken hequal xy, onlyPcMoved_setPc _ s, fun _ => advance_byte_toNat xy,
      fun hne => absurd hequal hne⟩
  · exact ⟨_, exec_jmpeq_not_taken hequal xy, onlyPcMoved_setPc _ s, fun heq => absurd heq hequal,
      fun _ => pcAdvanced_setPc s s⟩

end Sys2Proof.Machine
end

section
/-! What an effect of an instruction does to each part of the state, and the invariants of the step that follow: the
bound of `pc`, the canonical memory, the destinations of the register table, the output channel. -/

namespace Sys2Proof.Machine

/-! ## Which instruction can have which effect -/

/-- Only one of the 13 instructions has a register destination (rules R23 and R68). -/
theorem wellFormed_of_destination {i : Instr} {r : RegIdx} (hdest : destination i = some r) :
    i.wellFormed = true := by
  cases i with
  | loadi | load | store | move | add | addf | or | and | xor | rot | jmpeq | halt | jmpgt => rfl
  | illegal0 | illegalE | illegalF => cases hdest

theorem wellFormed_of_jump {i : Instr} {r : RegIdx} {xy : Byte} (hjump : i = .jmpeq r xy ∨ i = .jmpgt r xy) :
    i.wellFormed = true := by
  rcases hjump with rfl | rfl <;> rfl

/-- Outside the memory the word fetched is invalid (rules R41 and R176). -/
theorem fetchedInstr_outside {s : State} (houtside : 256 ≤ s.pc.toNat) : fetchedInstr s = .illegal0 0x000 := by
  rw [fetchedInstr, fetch_outside houtside, decodeBytes_zero_zero]

/-- One of the 13 instructions can be fetched only from inside the memory. -/
theorem pc_inside_of_wellFormed {s : State} (hwf : (fetchedInstr s).wellFormed = true) : s.pc.toNat ≤ 0xFF := by
  by_contra houtside
  rw [fetchedInstr_outside (by omega)] at hwf
  cases hwf

/-! ## `pc` -/

/-- An effect leaves `pc`, or it is that of one of the 13 instructions and puts `pc` two past itself or two past the
jump's target (rule R83). -/
theorem Effect.pc_cases {i : Instr} {s t : State} (heffect : Effect i s t) :
    t.pc = s.pc ∨ (i.wellFormed = true ∧
      (t.pc = advance s.pc.toNat ∨
        ∃ (r : RegIdx) (xy : Byte), (i = .jmpeq r xy ∨ i = .jmpgt r xy) ∧ t.pc = advance xy.toNat)) := by
  cases heffect with
  | register r v hdest => exact .inr ⟨wellFormed_of_destination hdest, .inl rfl⟩
  | stored r xy hstore => exact .inr ⟨by rw [hstore]; rfl, .inl rfl⟩
  | passed r xy hjump => exact .inr ⟨wellFormed_of_jump hjump, .inl rfl⟩
  | jumped r xy hjump => exact .inr ⟨wellFormed_of_jump hjump, .inr ⟨r, xy, hjump, rfl⟩⟩
  | halted | failed | overflowed => exact .inl rfl

/-- Settles O31: a step moves `pc` by an effect of one of the 13 instructions, which lies inside the memory, so that
two past it or two past a byte is below 512 and `advance` does not wrap. -/
theorem stepNeverWrapsPc : Obligations.StepNeverWrapsPc := by
  intro s t hstep
  rcases step_cases hstep with ⟨-, -, rfl⟩ | ⟨henabled, -, heffect⟩
  · exact .inl rfl
  · rcases heffect.pc_cases with hkept | ⟨hwf, hnext | ⟨r, xy, hjump, htarget⟩⟩
    · exact .inl (hkept.trans (fetch_pc s))
    · have hinside := pc_inside_of_wellFormed hwf
      have hpc : t.pc.toNat = s.pc.toNat + 2 := by
        rw [hnext, fetch_pc]
        exact advance_toNat (by omega)
      exact .inr ⟨henabled, hinside, by omega, .inl hpc⟩
    · have hpc : t.pc.toNat = xy.toNat + 2 := by rw [htarget, advance_byte_toNat]
      have := xy.isLt
      exact .inr ⟨henabled, pc_inside_of_wellFormed hwf, by omega, .inr ⟨r, xy, hjump, hpc⟩⟩

/-! ## The memory -/

/-- An effect leaves the memory, or it is a STORE's and sets the addressed cell. -/
theorem Effect.mem_cases {i : Instr} {s t : State} (heffect : Effect i s t) :
    t.mem = s.mem ∨
      ∃ (r : RegIdx) (xy : Byte), i = .store r xy ∧ t.mem = Memory.set s.mem xy.toNat (readReg r s) := by
  cases heffect with
  | stored r xy hstore => exact .inr ⟨r, xy, hstore, storeByte_mem xy _ s⟩
  | register | passed | jumped | halted | failed | overflowed => exact .inl rfl

/-- A step leaves the memory, or it is a fetched STORE's and sets the addressed cell. -/
theorem step_mem_cases {s t : State} (hstep : step s = .next t) :
    t.mem = s.mem ∨ ∃ (r : RegIdx) (xy : Byte),
      fetchedInstr s = .store r xy ∧ t.mem = Memory.set s.mem xy.toNat (readReg r s) := by
  rcases step_cases hstep with ⟨-, -, rfl⟩ | ⟨-, -, heffect⟩
  · exact .inl rfl
  · simpa only [fetch_mem, readReg_fetch] using heffect.mem_cases

theorem step_keeps_memoryCanonical {s t : State} (hcanonical : s.MemoryCanonical) (hstep : step s = .next t) :
    t.MemoryCanonical := by
  rcases step_mem_cases hstep with hmem | ⟨r, xy, -, hmem⟩
  · rwa [State.MemoryCanonical, hmem]
  · rw [State.MemoryCanonical, hmem]
    exact set_wf s.mem xy.toNat _ xy.isLt hcanonical

/-- Settles O29: the memory is as before or has one cell of it set, and by O31 `pc` is as before or at most 0x101. -/
theorem stepKeepsInvariant : Obligations.StepKeepsInvariant := by
  intro s t hcanonical hbounded hstep
  refine ⟨step_keeps_memoryCanonical hcanonical hstep, ?_⟩
  rcases stepNeverWrapsPc s t hstep with hkept | ⟨-, -, hpc, -⟩
  · rwa [State.PcBounded, hkept]
  · exact hpc

/-- Settles O33: the one cell a step can set is the fetched STORE's own. -/
theorem onlyStoreChangesMemory : Obligations.OnlyStoreChangesMemory := by
  intro s t hstep a hother
  rcases step_mem_cases hstep with hmem | ⟨r, xy, hstore, hmem⟩
  · rw [hmem]
  · rw [hmem]
    exact get_set_other (hother r xy hstore) s.mem _

/-! ## The registers -/

/-- An effect leaves every register but the instruction's destination (rule R23). -/
theorem Effect.readReg_kept {i : Instr} {s t : State} (heffect : Effect i s t) {q : RegIdx}
    (hq : destination i ≠ some q) : readReg q t = readReg q s := by
  cases heffect with
  | register r v hdest =>
    have hne : q ≠ r := by rintro rfl; exact hq hdest
    exact readReg_writeReg_other hne v s
  | stored r xy hstore => exact storeByte_regsKept xy _ s q
  | passed | jumped | halted | failed | overflowed => rfl

theorem step_keeps_readReg {s t : State} (hstep : step s = .next t) {q : RegIdx}
    (hq : destination (fetchedInstr s) ≠ some q) : readReg q t = readReg q s := by
  rcases step_cases hstep with ⟨-, -, rfl⟩ | ⟨-, -, heffect⟩
  · rfl
  · exact (heffect.readReg_kept hq).trans (readReg_fetch q s)

/-! ## The output channel -/

/-- An effect leaves the output channel, or it is that of a STORE to cell 0x00 and appends the stored byte
(rule R43). -/
theorem Effect.out_cases {i : Instr} {s t : State} (heffect : Effect i s t) :
    t.out = s.out ∨ ∃ r : RegIdx, i = .store r 0x00 ∧ t.out = s.out ++ [readReg r s] := by
  cases heffect with
  | stored r xy hstore =>
    rw [setPc_out, storeByte_out]
    by_cases hzero : xy.toNat = 0
    · obtain rfl : xy = 0x00 := BitVec.eq_of_toNat_eq hzero
      exact .inr ⟨r, hstore, if_pos hzero⟩
    · exact .inl (if_neg hzero)
  | register | passed | jumped | halted | failed | overflowed => exact .inl rfl

end Sys2Proof.Machine
end

section
/-! Noninterference: a register that an instruction does not read (rule R23), and the two channels (rules R28 and
R29), change nothing in what the instruction does. -/

namespace Sys2Proof.Machine

/-! ## A register that is not read -/

theorem writeReg_writeReg_self (r : RegIdx) (v w : Byte) (s : State) :
    writeReg r w (writeReg r v s) = writeReg r w s := by
  simp [writeReg]

theorem writeReg_comm {q r : RegIdx} (hne : q ≠ r) (v w : Byte) (s : State) :
    writeReg r w (writeReg q v s) = writeReg q v (writeReg r w s) := by
  have hidx : q.toNat ≠ r.toNat := fun h => hne (BitVec.eq_of_toNat_eq h)
  simp only [writeReg]
  rw [Vector.set_comm _ _ hidx]

theorem readReg_of_unread {q r : RegIdx} (hunread : (q == r) = false) (v : Byte) (s : State) :
    readReg r (writeReg q v s) = readReg r s :=
  readReg_writeReg_other (beq_eq_false_iff_ne.mp hunread).symm v s

theorem readReg_of_unread_pair {q a b : RegIdx} (hunread : (q == a || q == b) = false) (v : Byte) (s : State) :
    readReg a (writeReg q v s) = readReg a s ∧ readReg b (writeReg q v s) = readReg b s := by
  obtain ⟨ha, hb⟩ := Bool.or_eq_false_iff.mp hunread
  exact ⟨readReg_of_unread ha v s, readReg_of_unread hb v s⟩

/-- What changing register `q` first does to an instruction: nothing but leave the new value in `q`, unless the
instruction overwrites it. -/
def Uninfluenced (i : Instr) (q : RegIdx) (v : Byte) (s t : State) : Prop :=
  exec i s = .next t ∧ ∃ t', exec i (writeReg q v s) = .next t' ∧ (t' = t ∨ t' = writeReg q v t)

/-- An instruction that writes one register, and writes the same value there after the change. -/
theorem uninfluenced_of_register {i : Instr} {q r : RegIdx} {v w : Byte} {s : State}
    (hbefore : exec i s = .next (setPc (advance s.pc.toNat) (writeReg r w s)))
    (hafter : exec i (writeReg q v s) = .next (setPc (advance s.pc.toNat) (writeReg r w (writeReg q v s)))) :
    ∃ t, Uninfluenced i q v s t := by
  refine ⟨_, hbefore, _, hafter, ?_⟩
  by_cases hq : q = r
  · subst hq
    exact .inl (by rw [writeReg_writeReg_self])
  · exact .inr (by rw [writeReg_comm hq]; rfl)

/-- An instruction that writes a function of the two registers it reads. -/
theorem uninfluenced_of_binary {i : Instr} {q r a b : RegIdx} {v : Byte} (f : Byte → Byte → Byte)
    (hexec : ∀ s, exec i s = .next (setPc (advance s.pc.toNat) (writeReg r (f (readReg a s) (readReg b s)) s)))
    (hunread : (q == a || q == b) = false) (s : State) : ∃ t, Uninfluenced i q v s t := by
  obtain ⟨ha, hb⟩ := readReg_of_unread_pair hunread v s
  exact uninfluenced_of_register (hexec s) (by rw [hexec, ha, hb, writeReg_pc])

/-- An instruction that leaves the registers, so that the change stays in what it leaves. -/
theorem uninfluenced_of_registersKept {i : Instr} {q : RegIdx} {v : Byte} {s t : State}
    (hbefore : exec i s = .next t) (hafter : exec i (writeReg q v s) = .next (writeReg q v t)) :
    ∃ t, Uninfluenced i q v s t :=
  ⟨t, hbefore, _, hafter, .inr rfl⟩

theorem storeByte_writeReg (xy w : Byte) (q : RegIdx) (v : Byte) (s : State) :
    storeByte (addressOperand xy) w (writeReg q v s) = writeReg q v (storeByte (addressOperand xy) w s) := by
  simp only [storeByte_eq]
  split <;> rfl

theorem uninfluenced_add {r a b q : RegIdx} (hunread : readsReg (.add r a b) q = false) (v : Byte) (s : State) :
    ∃ t, Uninfluenced (.add r a b) q v s t := by
  obtain ⟨ha, hb⟩ := readReg_of_unread_pair hunread v s
  by_cases hfits : (readReg a s).toNat + (readReg b s).toNat ≤ 255
  · refine uninfluenced_of_register (exec_add_fits hfits) ?_
    rw [exec_add_fits (by rwa [ha, hb]), ha, hb, writeReg_pc]
  · have hlarge : 255 < (readReg a s).toNat + (readReg b s).toNat := Nat.not_le.mp hfits
    refine uninfluenced_of_registersKept (exec_add_overflows hlarge) ?_
    rw [exec_add_overflows (by rwa [ha, hb]), ha, hb]
    rfl

theorem uninfluenced_jmpeq {r q : RegIdx} {xy : Byte} (hunread : readsReg (.jmpeq r xy) q = false) (v : Byte)
    (s : State) : ∃ t, Uninfluenced (.jmpeq r xy) q v s t := by
  obtain ⟨hr, hzero⟩ := readReg_of_unread_pair hunread v s
  by_cases hequal : readReg r s = readReg 0 s
  · exact uninfluenced_of_registersKept (exec_jmpeq_taken hequal xy) (exec_jmpeq_taken (by rwa [hr, hzero]) xy)
  · exact uninfluenced_of_registersKept (exec_jmpeq_not_taken hequal xy)
      (exec_jmpeq_not_taken (by rwa [hr, hzero]) xy)

theorem uninfluenced_jmpgt {r q : RegIdx} {xy : Byte} (hunread : readsReg (.jmpgt r xy) q = false) (v : Byte)
    (s : State) : ∃ t, Uninfluenced (.jmpgt r xy) q v s t := by
  obtain ⟨hr, hzero⟩ := readReg_of_unread_pair hunread v s
  by_cases habove : (readReg 0 s).toNat < (readReg r s).toNat
  · exact uninfluenced_of_registersKept (exec_jmpgt_taken habove xy) (exec_jmpgt_taken (by rwa [hr, hzero]) xy)
  · exact uninfluenced_of_registersKept (exec_jmpgt_not_taken habove xy)
      (exec_jmpgt_not_taken (by rwa [hr, hzero]) xy)

/-- A register that the table of rule R23 does not list as read influences nothing. -/
theorem exec_uninfluenced {i : Instr} {q : RegIdx} (hunread : readsReg i q = false) (v : Byte) (s : State) :
    ∃ t, Uninfluenced i q v s t := by
  cases i with
  | loadi r xy => exact uninfluenced_of_register (exec_loadi r xy s) (exec_loadi r xy _)
  | load r xy => exact uninfluenced_of_register (exec_load r xy s) (exec_load r xy _)
  | store r xy =>
    refine uninfluenced_of_registersKept (exec_store r xy s) ?_
    rw [exec_store, readReg_of_unread hunread, storeByte_writeReg]
    rfl
  | move a b =>
    refine uninfluenced_of_register (exec_move a b s) ?_
    rw [exec_move, readReg_of_unread hunread, writeReg_pc]
  | add r a b => exact uninfluenced_add hunread v s
  | addf r a b => exact uninfluenced_of_binary floatAdd (exec_addf r a b) hunread s
  | or r a b => exact uninfluenced_of_binary (· ||| ·) (exec_or r a b) hunread s
  | and r a b => exact uninfluenced_of_binary (· &&& ·) (exec_and r a b) hunread s
  | xor r a b => exact uninfluenced_of_binary (· ^^^ ·) (exec_xor r a b) hunread s
  | rot r n =>
    exact uninfluenced_of_register (exec_rot r n s) (by rw [exec_rot, readReg_of_unread hunread, writeReg_pc])
  | jmpeq r xy => exact uninfluenced_jmpeq hunread v s
  | halt => exact uninfluenced_of_registersKept (exec_halt s) (exec_halt _)
  | jmpgt r xy => exact uninfluenced_jmpgt hunread v s
  | illegal0 u => exact uninfluenced_of_registersKept (exec_illegal0 u s) (exec_illegal0 u _)
  | illegalE u => exact uninfluenced_of_registersKept (exec_illegalE u s) (exec_illegalE u _)
  | illegalF u => exact uninfluenced_of_registersKept (exec_illegalF u s) (exec_illegalF u _)

/-- Settles O32: the first half by the effects (`step_keeps_readReg`), the second by a case for each instruction in
`exec_uninfluenced`. -/
theorem registerTableHolds : Obligations.RegisterTableHolds := by
  refine ⟨fun s t hstep q hq => step_keeps_readReg hstep hq, fun i q v s t hunread hexec => ?_⟩
  obtain ⟨u, hu, hchanged⟩ := exec_uninfluenced hunread v s
  obtain rfl : u = t := Host.Outcome.next.inj (hu.symm.trans hexec)
  exact hchanged

/-! ## The channels -/

/-- The state with other contents in the two channels. -/
def withChannels (out : List Byte) (diag : List Diagnostic) (s : State) : State := { s with out := out, diag := diag }

/-- An instruction appends the same events whatever the channels hold, and does the same otherwise. -/
def ChannelBlind (i : Instr) (s t : State) : Prop :=
  exec i s = .next t ∧ ∃ (moreOut : List Byte) (moreDiag : List Diagnostic),
    t.out = s.out ++ moreOut ∧ t.diag = s.diag ++ moreDiag ∧
    ∀ (out : List Byte) (diag : List Diagnostic),
      exec i (withChannels out diag s) = .next (withChannels (out ++ moreOut) (diag ++ moreDiag) t)

/-- An instruction that appends nothing. -/
theorem channelBlind_of_quiet {i : Instr} {s t : State} (hexec : exec i s = .next t) (hkept : ChannelsKept s t)
    (hblind : ∀ out diag, exec i (withChannels out diag s) = .next (withChannels out diag t)) :
    ∃ t, ChannelBlind i s t := by
  obtain ⟨hout, hdiag⟩ := hkept
  exact ⟨t, hexec, [], [], by simpa using hout, by simpa using hdiag,
    fun out diag => by simpa using hblind out diag⟩

/-- A decode failure appends its one record. -/
theorem channelBlind_of_failure {i : Instr} {word : Word} {sub : Subcause}
    (hexec : ∀ s, exec i s = .next (raiseDecodeFailure s.pc word sub s)) (s : State) : ∃ t, ChannelBlind i s t :=
  ⟨_, hexec s, [], [.decodeFailure s.pc word sub], (List.append_nil _).symm, rfl, fun out diag => by
    rw [hexec, List.append_nil]
    rfl⟩

theorem channelBlind_store (r : RegIdx) (xy : Byte) (s : State) : ∃ t, ChannelBlind (.store r xy) s t := by
  by_cases hzero : xy.toNat = 0
  · refine ⟨_, exec_store r xy s, [readReg r s], [], ?_, ?_, fun out diag => ?_⟩
    · rw [setPc_out, storeByte_out, if_pos hzero]
    · rw [setPc_diag, storeByte_diag, List.append_nil]
    · rw [exec_store, List.append_nil, storeByte_eq, storeByte_eq, if_pos hzero, if_pos hzero]
      rfl
  · refine channelBlind_of_quiet (exec_store r xy s) ⟨?_, storeByte_diag xy _ s⟩ fun out diag => ?_
    · rw [setPc_out, storeByte_out, if_neg hzero]
    · rw [exec_store, storeByte_eq, storeByte_eq, if_neg hzero, if_neg hzero]
      rfl

theorem exec_channelBlind (i : Instr) (s : State) : ∃ t, ChannelBlind i s t := by
  cases i with
  | loadi r xy => exact channelBlind_of_quiet (exec_loadi r xy s) ⟨rfl, rfl⟩ fun _ _ => exec_loadi r xy _
  | load r xy => exact channelBlind_of_quiet (exec_load r xy s) ⟨rfl, rfl⟩ fun _ _ => exec_load r xy _
  | store r xy => exact channelBlind_store r xy s
  | move a b => exact channelBlind_of_quiet (exec_move a b s) ⟨rfl, rfl⟩ fun _ _ => exec_move a b _
  | add r a b =>
    by_cases hfits : (readReg a s).toNat + (readReg b s).toNat ≤ 255
    · exact channelBlind_of_quiet (exec_add_fits hfits) ⟨rfl, rfl⟩ fun _ _ => exec_add_fits hfits
    · have hlarge := Nat.not_le.mp hfits
      exact channelBlind_of_quiet (exec_add_overflows hlarge) ⟨rfl, rfl⟩ fun _ _ => exec_add_overflows hlarge
  | addf r a b => exact channelBlind_of_quiet (exec_addf r a b s) ⟨rfl, rfl⟩ fun _ _ => exec_addf r a b _
  | or r a b => exact channelBlind_of_quiet (exec_or r a b s) ⟨rfl, rfl⟩ fun _ _ => exec_or r a b _
  | and r a b => exact channelBlind_of_quiet (exec_and r a b s) ⟨rfl, rfl⟩ fun _ _ => exec_and r a b _
  | xor r a b => exact channelBlind_of_quiet (exec_xor r a b s) ⟨rfl, rfl⟩ fun _ _ => exec_xor r a b _
  | rot r n => exact channelBlind_of_quiet (exec_rot r n s) ⟨rfl, rfl⟩ fun _ _ => exec_rot r n _
  | jmpeq r xy =>
    by_cases hequal : readReg r s = readReg 0 s
    · exact channelBlind_of_quiet (exec_jmpeq_taken hequal xy) ⟨rfl, rfl⟩
        fun out diag => exec_jmpeq_taken (s := withChannels out diag s) hequal xy
    · exact channelBlind_of_quiet (exec_jmpeq_not_taken hequal xy) ⟨rfl, rfl⟩
        fun out diag => exec_jmpeq_not_taken (s := withChannels out diag s) hequal xy
  | halt => exact channelBlind_of_quiet (exec_halt s) ⟨rfl, rfl⟩ fun _ _ => exec_halt _
  | jmpgt r xy =>
    by_cases habove : (readReg 0 s).toNat < (readReg r s).toNat
    · exact channelBlind_of_quiet (exec_jmpgt_taken habove xy) ⟨rfl, rfl⟩
        fun out diag => exec_jmpgt_taken (s := withChannels out diag s) habove xy
    · exact channelBlind_of_quiet (exec_jmpgt_not_taken habove xy) ⟨rfl, rfl⟩
        fun out diag => exec_jmpgt_not_taken (s := withChannels out diag s) habove xy
  | illegal0 u => exact channelBlind_of_failure (exec_illegal0 u) s
  | illegalE u => exact channelBlind_of_failure (exec_illegalE u) s
  | illegalF u => exact channelBlind_of_failure (exec_illegalF u) s

/-- A fetch reads the same bytes and reports the same reads whatever the channels hold. -/
theorem fetchedInstr_withChannels (out : List Byte) (diag : List Diagnostic) (s : State) :
    fetchedInstr (withChannels out diag s) = fetchedInstr s := by
  have hbytes : (fetch (withChannels out diag s)).1 = (fetch s).1 := fetch_bytes_congr rfl rfl
  rw [fetchedInstr, hbytes, fetchedInstr]

theorem exists_fetch_reports (s : State) :
    ∃ reads : List Diagnostic, (fetch s).2.diag = s.diag ++ reads ∧
      ∀ out diag, (fetch (withChannels out diag s)).2 = withChannels out (diag ++ reads) (fetch s).2 :=
  ⟨_, by rw [fetch_state], fun out diag => by rw [fetch_state, fetch_state]; rfl⟩

/-- Settles O38: the fetch appends its reads and `exec_channelBlind` says that the instruction's own events follow. -/
theorem channelsDoNotInfluenceStep : Obligations.ChannelsDoNotInfluenceStep := by
  intro s t out diag hstep
  rcases step_cases hstep with ⟨hfault, hrun, rfl⟩ | ⟨henabled, hexec, -⟩
  · refine ⟨[], [], (List.append_nil _).symm, (List.append_nil _).symm, ?_⟩
    rw [List.append_nil, List.append_nil]
    exact step_halted (s := withChannels out diag t) hfault hrun
  · obtain ⟨u, hu, moreOut, moreDiag, hout, hdiag, hblind⟩ := exec_channelBlind (fetchedInstr s) (fetch s).2
    obtain rfl : u = t := Host.Outcome.next.inj (hu.symm.trans hexec)
    obtain ⟨reads, hreads, hfetch⟩ := exists_fetch_reports s
    have hchanged : (withChannels out diag s).Enabled := henabled
    refine ⟨moreOut, reads ++ moreDiag, ?_, ?_, ?_⟩
    · rw [hout, fetch_out]
    · rw [hdiag, hreads, List.append_assoc]
    · calc step (withChannels out diag s)
          = exec (fetchedInstr s) (withChannels out (diag ++ reads) (fetch s).2) := by
            rw [step_enabled hchanged, fetchedInstr_withChannels, hfetch]
        _ = .next (withChannels (out ++ moreOut) (diag ++ (reads ++ moreDiag)) u) := by
            rw [hblind, List.append_assoc]

/-- A step only appends to the two channels. -/
theorem step_channels_prefix {s t : State} (hstep : step s = .next t) : s.out <+: t.out ∧ s.diag <+: t.diag := by
  obtain ⟨moreOut, moreDiag, hout, hdiag, -⟩ := channelsDoNotInfluenceStep s t [] [] hstep
  exact ⟨⟨moreOut, hout.symm⟩, ⟨moreDiag, hdiag.symm⟩⟩

/-- Settles O39, by induction over the run: each step only appends. -/
theorem channelsOnlyGrowAlongRuns : Obligations.ChannelsOnlyGrowAlongRuns := by
  intro k s t hrun
  induction hrun with
  | refl s _ => exact ⟨List.prefix_refl _, List.prefix_refl _⟩
  | more k s t u _ hstep _ ih =>
    obtain ⟨hout, hdiag⟩ := step_channels_prefix hstep
    exact ⟨hout.trans ih.1, hdiag.trans ih.2⟩

end Sys2Proof.Machine
end

section
/-! The engine cycle (40_engine_cycle.md): where a step stops, what it reports, and the run-state machine. -/

namespace Sys2Proof.Machine

/-! ## Stopping -/

/-- Settles O9: with a mark the step faults with it, and without one it is a Halted step or an execution, which
answers a next state by `exec_effect`. -/
theorem stepStopsExactlyAtFaultMark : Obligations.StepStopsExactlyAtFaultMark := by
  intro s
  cases hfault : s.fault with
  | some f => simp [step_marked hfault]
  | none =>
    have hnext : ∃ t, step s = .next t := by
      cases hrun : s.run with
      | halted => exact ⟨s, step_halted hfault hrun⟩
      | running =>
        obtain ⟨t, hexec, -⟩ := exec_effect (fetchedInstr s) (fetch s).2
        exact ⟨t, (step_enabled ⟨hrun, hfault⟩).trans hexec⟩
    obtain ⟨t, ht⟩ := hnext
    simp [ht]

/-- Settles O8: the word fetched is 0x0000 after two reports (O7), and its execution is one decode failure. -/
theorem stepOutsideMemoryHalts : Obligations.StepOutsideMemoryHalts := by
  intro s hrun hfault houtside
  obtain ⟨-, -, hstep⟩ := stepRunsDecodedInstruction s hrun hfault
  refine ⟨_, (hstep houtside).trans (exec_illegal0 0x000 _), rfl, rfl, ?_, fun _ => rfl, fun _ => rfl, rfl, rfl⟩
  exact List.append_assoc s.diag _ _

/-- Settles O40, by induction over the run: a Halted step answers the state itself. -/
theorem finalStateNeverChanges : Obligations.FinalStateNeverChanges := by
  intro k s t hfinal hrun
  induction hrun with
  | refl s _ => rfl
  | more k s t u _ hstep _ ih =>
    obtain rfl : s = t := Host.Outcome.next.inj ((step_halted hfinal.2 hfinal.1).symm.trans hstep)
    exact ih hfinal

/-! ## Diagnostics -/

/-- An effect reports nothing, or is a decode failure's: one record, Halted, `pc` in place (rule R202). -/
theorem Effect.diag_cases {i : Instr} {s t : State} (heffect : Effect i s t) :
    t.diag = s.diag ∨ ∃ word sub, t.diag = s.diag ++ [.decodeFailure s.pc word sub] ∧
      t.run = .halted ∧ t.pc = s.pc := by
  cases heffect with
  | stored r xy hstore => exact .inl (storeByte_diag xy _ s)
  | failed word sub hinvalid => exact .inr ⟨word, sub, rfl, rfl, rfl⟩
  | register | passed | jumped | halted | overflowed => exact .inl rfl

/-- The records a fetch appends: at most two, each an out-of-bounds read. -/
theorem fetch_reads (s : State) :
    ∃ reads : List Diagnostic, (fetch s).2.diag = s.diag ++ reads ∧ reads.length ≤ 2 ∧
      ∀ d ∈ reads, ∃ a, 256 ≤ a ∧ d = .outOfBoundsAccess .read a := by
  refine ⟨_, by rw [fetch_state], ?_, fun d hd => ?_⟩
  · rw [List.length_map]
    exact List.length_filter_le _ _
  · obtain ⟨a, ha, rfl⟩ := List.mem_map.mp hd
    exact ⟨a, of_decide_eq_true (List.mem_filter.mp ha).2, rfl⟩

/-- Settles O35: the reads are the fetch's, and after them comes at most the one record of a decode failure. -/
theorem stepAppendsBoundedDiagnostics : Obligations.StepAppendsBoundedDiagnostics := by
  intro s t hstep
  rcases step_cases hstep with ⟨-, -, rfl⟩ | ⟨-, -, heffect⟩
  · exact ⟨[], [], by simp⟩
  · obtain ⟨reads, hreads, hlength, hkind⟩ := fetch_reads s
    rcases heffect.diag_cases with hquiet | ⟨word, sub, hfailure, hrun, hpc⟩
    · exact ⟨reads, [], by rw [hquiet, hreads, List.append_nil], hlength, hkind, by simp⟩
    · rw [fetch_pc] at hfailure hpc
      exact ⟨reads, [.decodeFailure s.pc word sub], by rw [hfailure, hreads], hlength, hkind, le_rfl,
        by simp, fun _ => ⟨hrun, hpc⟩⟩

/-! ## The run state -/

/-- From a Running state an effect leaves Halted exactly if it is HALT's or an invalid word's. -/
theorem Effect.run_halted_iff {i : Instr} {s t : State} (heffect : Effect i s t) (hrun : s.run = .running) :
    t.run = .halted ↔ i = .halt ∨ i.wellFormed = false := by
  have stays (hkept : t.run = s.run) (hwf : i.wellFormed = true) (hne : i ≠ .halt) :
      t.run = .halted ↔ i = .halt ∨ i.wellFormed = false := by
    simp [hkept, hrun, hwf, hne]
  cases heffect with
  | register r v hdest =>
    exact stays rfl (wellFormed_of_destination hdest) (by rintro rfl; cases hdest)
  | stored r xy hstore => exact stays (storeByte_run xy _ s) (by rw [hstore]; rfl) (by simp [hstore])
  | passed r xy hjump => exact stays rfl (wellFormed_of_jump hjump) (by rintro rfl; simp at hjump)
  | jumped r xy hjump => exact stays rfl (wellFormed_of_jump hjump) (by rintro rfl; simp at hjump)
  | halted hhalt => exact ⟨fun _ => .inl hhalt, fun _ => rfl⟩
  | failed word sub hinvalid => exact ⟨fun _ => .inr hinvalid, fun _ => rfl⟩
  | overflowed r a b hadd hlarge => exact stays rfl (by rw [hadd]; rfl) (by simp [hadd])

/-- Settles O36: the first clause is `Effect.run_halted_iff` for the fetched instruction. -/
theorem runStateMachine : Obligations.RunStateMachine := by
  refine ⟨fun s t hrun hfault hstep => ?_, fun s hrun hfault => step_halted hfault hrun,
    fun s => ⟨rfl, rfl, rfl⟩⟩
  rw [step_enabled ⟨hrun, hfault⟩] at hstep
  exact (effect_of_exec hstep).run_halted_iff ((fetch_run s).trans hrun)

/-! ## The fault mark -/

/-- An effect leaves the fault mark, or it is that of an ADD whose sum does not fit. -/
theorem Effect.fault_cases {i : Instr} {s t : State} (heffect : Effect i s t) :
    t.fault = s.fault ∨ ∃ r a b : RegIdx, i = .add r a b ∧ 255 < (readReg a s).toNat + (readReg b s).toNat := by
  cases heffect with
  | stored r xy hstore => exact .inl (storeByte_fault xy _ s)
  | overflowed r a b hadd hlarge => exact .inr ⟨r, a, b, hadd, hlarge⟩
  | register | passed | jumped | halted | failed => exact .inl rfl

/-- An enabled step sets the mark exactly if it fetched an ADD whose sum does not fit (rule R204). -/
theorem step_sets_fault_iff {s t : State} (henabled : s.Enabled) (hstep : step s = .next t) :
    t.fault ≠ none ↔ ∃ r a b : RegIdx, fetchedInstr s = .add r a b ∧
      255 < (readReg a s).toNat + (readReg b s).toNat := by
  rw [step_enabled henabled] at hstep
  constructor
  · intro hmarked
    rcases (effect_of_exec hstep).fault_cases with hkept | hadd
    · exact absurd (hkept.trans ((fetch_fault s).trans henabled.2)) hmarked
    · simpa only [readReg_fetch] using hadd
  · rintro ⟨r, a, b, hadd, hlarge⟩
    rw [hadd, exec_add_overflows (by simpa only [readReg_fetch] using hlarge)] at hstep
    obtain rfl := Host.Outcome.next.inj hstep
    exact Option.some_ne_none _

/-! ## Reset -/

/-- Settles O30: no cell is listed, and `pc` is 0x10. -/
theorem resetMeetsInvariant : Obligations.ResetMeetsInvariant := fun regReset =>
  ⟨rfl, show (State.resetWith regReset).pc.toNat ≤ 0x101 by rw [resetWith_pc]; decide⟩

/-- Settles O46: each field is the one `State.resetWith` gives it. -/
theorem resetState : Obligations.ResetState := fun _ =>
  ⟨fun a => get_nil a, rfl, rfl, rfl, rfl, rfl, fun _ => rfl, rfl⟩

/-- Settles O47: no cell is listed, so that the step inside the memory (O7) executes the invalid word 0x0000. -/
theorem firstStepAtResetHalts : Obligations.FirstStepAtResetHalts := by
  intro regReset
  obtain ⟨hinside, -, -⟩ := stepRunsDecodedInstruction (State.resetWith regReset) rfl rfl
  have hstep : step (State.resetWith regReset) = exec (decodeBytes 0x00 0x00) (State.resetWith regReset) :=
    hinside (by rw [resetWith_pc]; decide)
  rw [hstep, decodeBytes_zero_zero, exec_illegal0]
  rfl

end Sys2Proof.Machine
end

section
/-! The instructions that the families above leave: MOVE, ADD, ADDF, JMPGT, HALT and the invalid words. -/

namespace Sys2Proof.Machine

/-! ## Words -/

/-- A word with opcode 4 decodes to MOVE of its last two operand nibbles; the first one goes to no field. -/
theorem decodeWord_move (u src dst : Nibble) :
    decodeWord (wordOfParts 0x4#4 (operandsRst u src dst)) = .move src dst := by
  have hopcode : (d0 (wordOfParts 0x4#4 (operandsRst u src dst))).toNat = 0x4 := by rw [d0_parts]; rfl
  simp only [decodeWord, hopcode, d2_rst, d3_rst]

/-- A word with opcode C decodes to HALT whatever its operand bits are. -/
theorem decodeWord_halt (u : BitVec 12) : decodeWord (wordOfParts 0xC#4 u) = .halt := by
  have hopcode : (d0 (wordOfParts 0xC#4 u)).toNat = 0xC := by rw [d0_parts]; rfl
  simp only [decodeWord, hopcode]

/-! ## Moving and adding -/

/-- Settles O13: `decodeWord_move` decodes the word, and the meaning is one register write. -/
theorem moveCopiesRegister : Obligations.MoveCopiesRegister := fun u src dst =>
  ⟨decodeWord_move u src dst, fun s => ⟨_, exec_move src dst s, regResult_of_write dst (readReg src s) s⟩⟩

/-- Settles O14: a sum of at most 255 is its own low eight bits, and the meaning is one register write of them. -/
theorem addWritesSumThatFits : Obligations.AddWritesSumThatFits := fun r a b =>
  ⟨decodeWord_encode (.add r a b), fun s hfits =>
    ⟨_, _, exec_add_fits hfits, (BitVec.toNat_ofNat _ 8).trans (Nat.mod_eq_of_lt (by omega)),
      regResult_of_write r _ s⟩⟩

/-- Settles O15: the meaning sets the fault mark alone. -/
theorem addOverflowSetsMarkOnly : Obligations.AddOverflowSetsMarkOnly := fun _ _ _ _ hlarge =>
  ⟨_, exec_add_overflows hlarge, rfl, rfl, rfl, fun _ => rfl, fun _ => rfl, rfl, rfl⟩

/-- Settles O16: the word is the encoding of ADDF, whose meaning is one register write. -/
theorem addfWritesFloatSum : Obligations.AddfWritesFloatSum := fun r a b =>
  ⟨decodeWord_encode (.addf r a b), fun s => ⟨_, exec_addf r a b s, regResult_of_write r _ s⟩⟩

/-! ## Jumping and stopping -/

/-- Settles O20: as for JMPEQ, one move of `pc` on either branch. -/
theorem jmpgtJumpsWhenAboveR0 : Obligations.JmpgtJumpsWhenAboveR0 := by
  intro r xy
  refine ⟨decodeWord_encode (.jmpgt r xy), fun s => ?_⟩
  by_cases habove : (readReg 0 s).toNat < (readReg r s).toNat
  · exact ⟨_, exec_jmpgt_taken habove xy, onlyPcMoved_setPc _ s, fun _ => advance_byte_toNat xy,
      fun hnot => absurd habove hnot⟩
  · exact ⟨_, exec_jmpgt_not_taken habove xy, onlyPcMoved_setPc _ s, fun h => absurd h habove,
      fun _ => pcAdvanced_setPc s s⟩

/-- The step of a fetched HALT stops the engine where it is. -/
theorem step_halt {s : State} (henabled : s.Enabled) (hhalt : fetchedInstr s = .halt) :
    step s = .next (setRun .halted (fetch s).2) := by
  rw [step_enabled henabled, hhalt, exec_halt]

/-- Settles O21: memory and `pc` are as the HALT left them, so that the step after `start()` fetches it again. -/
theorem haltStopsTheEngine : Obligations.HaltStopsTheEngine := by
  refine ⟨decodeWord_halt,
    fun s => ⟨_, exec_halt s, rfl, rfl, rfl, fun _ => rfl, fun _ => rfl, rfl, rfl⟩, ?_⟩
  intro s t hrun hfault hhalt hstep
  rw [step_halt ⟨hrun, hfault⟩ hhalt] at hstep
  obtain rfl := Host.Outcome.next.inj hstep
  have hmem : (startEngine (setRun .halted (fetch s).2)).mem = s.mem := fetch_mem s
  have hpc : (startEngine (setRun .halted (fetch s).2)).pc = s.pc := fetch_pc s
  have hagain : fetchedInstr (startEngine (setRun .halted (fetch s).2)) = .halt := by
    rw [← hhalt, fetchedInstr, fetch_bytes_congr hmem hpc, fetchedInstr]
  have henabled : (startEngine (setRun .halted (fetch s).2)).Enabled := ⟨rfl, (fetch_fault s).trans hfault⟩
  exact ⟨_, step_halt henabled hagain, rfl, (fetch_pc _).trans hpc⟩

/-- Settles O22: the words are the encodings of the three invalid rows, whose meanings are one decode failure. -/
theorem invalidWordRaisesDecodeFailure : Obligations.InvalidWordRaisesDecodeFailure := by
  intro u
  refine ⟨decodeWord_encode (.illegal0 u), decodeWord_encode (.illegalE u), decodeWord_encode (.illegalF u),
    fun s => ⟨⟨_, exec_illegal0 u s, ?_⟩, ⟨_, exec_illegalE u s, ?_⟩, ⟨_, exec_illegalF u s, ?_⟩⟩⟩
  all_goals exact ⟨rfl, rfl, rfl, rfl, rfl, fun _ => rfl, fun _ => rfl⟩

end Sys2Proof.Machine
end

section
/-! The adder in the source's own words (rules R122, R125 and R127), and the properties of `floatAdd` that rules R129
and R130 name. -/

namespace Sys2Proof.Machine

/-! ## The source's two loops -/

/-- Enough rounds of the alignment loop are one shift by the difference of the exponents (rule R122). -/
theorem raiseExponent_eq (fuel m e target : Nat) (hfuel : target ≤ e + fuel) :
    raiseExponent fuel target (m, (e : Int)) = (m >>> (target - e), ((max e target : Nat) : Int)) := by
  induction fuel generalizing m e with
  | zero =>
    have hle : target ≤ e := hfuel
    simp [raiseExponent, hle]
  | succ fuel ih =>
    by_cases hlt : e < target
    · have hround : raiseExponent (fuel + 1) target (m, (e : Int)) =
          raiseExponent fuel target (m >>> 1, ((e + 1 : Nat) : Int)) := by
        simp [raiseExponent, hlt]
      have hshift : 1 + (target - (e + 1)) = target - e := by omega
      have hmax : max (e + 1) target = max e target := by omega
      rw [hround, ih _ _ (by omega), ← Nat.shiftRight_add, hshift, hmax]
    · have hle : target ≤ e := Nat.not_lt.mp hlt
      simp [raiseExponent, hlt, Nat.sub_eq_zero_of_le hle, Nat.max_eq_left hle]

/-- One round normalises a mantissa of at most 30, and the next finds nothing to do (rule R125). -/
theorem normaliseLoop_eq {m : Nat} (hm : m ≤ 30) (fuel e : Nat) :
    normaliseLoop (fuel + 2) (m, (e : Int)) = ((normaliseOnce m e).1, ((normaliseOnce m e).2 : Int)) := by
  by_cases hlarge : m > 15
  · have hhalf : ¬ m >>> 1 > 15 := by rw [Nat.shiftRight_eq_div_pow]; omega
    simp [normaliseLoop, normaliseOnce, hlarge, hhalf]
  · simp [normaliseLoop, normaliseOnce, hlarge]

theorem unpackFloat_exp_lt (a : Byte) : (unpackFloat a).exp < 8 := by
  rw [unpackFloat_exp]
  omega

/-- Both alignment loops together are `alignMantissas`. -/
theorem raiseExponent_unpackFloat (x y : Byte) :
    raiseExponent 8 (unpackFloat y).exp ((unpackFloat x).man, ((unpackFloat x).exp : Int)) =
        ((alignMantissas (unpackFloat x) (unpackFloat y)).1,
          ((alignMantissas (unpackFloat x) (unpackFloat y)).2.2 : Int)) ∧
      (raiseExponent 8 (unpackFloat x).exp ((unpackFloat y).man, ((unpackFloat y).exp : Int))).1 =
        (alignMantissas (unpackFloat x) (unpackFloat y)).2.1 := by
  have hx := unpackFloat_exp_lt x
  have hy := unpackFloat_exp_lt y
  rw [raiseExponent_eq _ _ _ _ (by omega), raiseExponent_eq _ _ _ _ (by omega), alignMantissas_eq,
    Nat.shiftRight_eq_div_pow, Nat.shiftRight_eq_div_pow, Nat.sub_eq_max_sub (unpackFloat y).exp,
    Nat.sub_eq_max_sub (unpackFloat x).exp, Nat.max_comm (unpackFloat y).exp]
  exact ⟨rfl, rfl⟩

/-- An exponent that is a natural number is never below 0, so that the clamp of rule R127 is never taken and only the
saturation of rule R126 is left. -/
theorem clamp_eq_saturate (sign : Bool) (m e : Nat) :
    (if (e : Int) ≥ 7 then packFloat sign 15 7
      else if (e : Int) < 0 then packFloat false 0 0
      else packFloat sign m (e : Int).toNat) =
    packFloat sign (saturate m e).1 (saturate m e).2 := by
  have hclamp : ¬ (e : Int) < 0 := by omega
  have hcast : (e : Int) ≥ 7 ↔ e ≥ 7 := by omega
  rw [if_neg hclamp, Int.toNat_natCast]
  simp only [hcast, saturate]
  split <;> rfl

/-- Settles O24: each loop is the one shift of `floatAdd`'s own stage, and the clamp is never taken. -/
theorem floatAddAsWrittenIsFloatAdd : Obligations.FloatAddAsWrittenIsFloatAdd := by
  intro a b
  obtain ⟨hraised, hraised'⟩ := raiseExponent_unpackFloat a b
  obtain ⟨hman1, hman2⟩ := alignMantissas_unpackFloat_le a b
  have hsum := combineMantissas_man_le hman1 hman2 (unpackFloat a).sign (unpackFloat b).sign
  rw [floatAddAsWritten]
  rw [hraised, hraised', normaliseLoop_eq hsum 6]
  exact clamp_eq_saturate _ _ _

/-! ## Commutativity (rule R130) -/

theorem alignMantissas_comm (x y : FloatFields) :
    alignMantissas y x = ((alignMantissas x y).2.1, (alignMantissas x y).1, (alignMantissas x y).2.2) := by
  simp only [alignMantissas_eq, Nat.max_comm]

/-- Off a tie of different signs the larger mantissa gives the sign in both orders (rule R124). -/
theorem combineMantissas_comm {s1 s2 : Bool} {m1 m2 : Nat} (h : s1 = s2 ∨ m1 ≠ m2) :
    combineMantissas s2 m2 s1 m1 = combineMantissas s1 m1 s2 m2 := by
  by_cases hs : s1 = s2
  · simp [combineMantissas, hs, Nat.add_comm]
  · have hne : m1 ≠ m2 := h.resolve_left hs
    rcases Nat.lt_or_gt_of_ne hne with hlt | hgt
    · simp [combineMantissas, hs, Ne.symm hs, hlt, hlt.le]
    · simp [combineMantissas, hs, Ne.symm hs, hgt, hgt.le]

/-- Settles O25: alignment is symmetric, and the combined sign and mantissa are the same in both orders. -/
theorem floatAddCommutesOffTies : Obligations.FloatAddCommutesOffTies := by
  intro a b e hoff
  have hsymm : (unpackFloat a).sign = (unpackFloat b).sign ∨
      (alignMantissas (unpackFloat a) (unpackFloat b)).1 ≠ (alignMantissas (unpackFloat a) (unpackFloat b)).2.1 := by
    simpa only [← sign_toNat_inj, unpackFloat_sign_toNat, alignMantissas_eq, unpackFloat_exp, unpackFloat_man]
      using hoff
  simp only [floatAdd, alignMantissas_comm (unpackFloat a) (unpackFloat b), combineMantissas_comm hsymm]

/-! ## Exponent 7 (rules R126 and R130) -/

theorem le_normaliseOnce_exp (m e : Nat) : e ≤ (normaliseOnce m e).2 := by
  rw [normaliseOnce_eq]
  dsimp only
  split <;> omega

/-- A sum is a saturated exponent, at least as large as both operands' before saturation, with a four-bit mantissa. -/
theorem floatAdd_saturated (a b : Byte) :
    ∃ (sign : Bool) (m e : Nat), m ≤ 15 ∧ max (a.toNat / 16 % 8) (b.toNat / 16 % 8) ≤ e ∧
      (floatAdd a b).toNat = if e ≥ 7 then sign.toNat * 128 + 127 else sign.toNat * 128 + e * 16 + m := by
  obtain ⟨hman1, hman2⟩ := alignMantissas_unpackFloat_le a b
  refine ⟨_, _, _, normaliseOnce_man_le (combineMantissas_man_le hman1 hman2 _ _) _, ?_,
    packFloat_saturate_toNat (normaliseOnce_man_le (combineMantissas_man_le hman1 hman2 _ _) _) _ _⟩
  refine le_trans ?_ (le_normaliseOnce_exp _ _)
  rw [alignMantissas_eq, unpackFloat_exp, unpackFloat_exp]

/-- Settles O26: the exponent is below 7 or the sum is saturated, which it is if an operand's exponent is 7. -/
theorem floatExponentSevenSaturates : Obligations.FloatExponentSevenSaturates := by
  intro a b
  obtain ⟨sign, m, e, hm, he, hsum⟩ := floatAdd_saturated a b
  refine ⟨fun hseven => ?_, fun hoperand => ?_⟩
  · split at hsum <;> omega
  · rw [if_pos (by omega)] at hsum
    cases sign with
    | false => exact .inl (BitVec.eq_of_toNat_eq hsum)
    | true => exact .inr (BitVec.eq_of_toNat_eq hsum)

end Sys2Proof.Machine
end

section
/-! The encoding family, second part (30_encoding.md): the encoder after the decoder, the row that the first nibble
selects, and the source's decoder over hex text. -/

namespace Sys2Proof

/-! ## Masks over the operand nibbles (rule R72) -/

theorem word_eq_rst (w : Word) : w = wordOfParts (d0 w) (operandsRst (d1 w) (d2 w) (d3 w)) := by
  rw [← operandBits_eq_rst, word_parts]

theorem wordOfParts_and (op op' : Nibble) (u u' : BitVec 12) :
    wordOfParts op u &&& wordOfParts op' u' = wordOfParts (op &&& op') (u &&& u') := BitVec.and_append

theorem operandsRst_and (r s t r' s' t' : Nibble) :
    operandsRst r s t &&& operandsRst r' s' t' = operandsRst (r &&& r') (s &&& s') (t &&& t') :=
  BitVec.and_append.trans (congrArg (fun rs : BitVec 8 => rs ++ (t &&& t')) BitVec.and_append)

/-- A mask of whole nibbles keeps the opcode and masks each operand nibble. -/
theorem word_and_mask (w : Word) (r s t : Nibble) :
    w &&& wordOfParts 0xF (operandsRst r s t) =
      wordOfParts (d0 w) (operandsRst (d1 w &&& r) (d2 w &&& s) (d3 w &&& t)) := by
  have hopcode : d0 w &&& 0xF = d0 w := BitVec.and_allOnes
  conv_lhs => rw [word_eq_rst w]
  rw [wordOfParts_and, operandsRst_and, hopcode]

theorem nibble_and_ones (x : Nibble) : x &&& 0xF = x := BitVec.and_allOnes
theorem nibble_and_zeros (x : Nibble) : x &&& 0x0 = 0x0 := BitVec.and_zero

theorem word_clear_d1 (w : Word) : w &&& 0xF0FF = wordOfParts (d0 w) (operandsRst 0x0 (d2 w) (d3 w)) := by
  have hmask := word_and_mask w 0x0 0xF 0xF
  rwa [nibble_and_zeros, nibble_and_ones, nibble_and_ones] at hmask

theorem word_clear_d2 (w : Word) : w &&& 0xFF0F = wordOfParts (d0 w) (operandsRst (d1 w) 0x0 (d3 w)) := by
  have hmask := word_and_mask w 0xF 0x0 0xF
  rwa [nibble_and_ones, nibble_and_zeros, nibble_and_ones] at hmask

theorem word_clear_operands (w : Word) : w &&& 0xF000 = wordOfParts (d0 w) 0x000 := by
  have hmask := word_and_mask w 0x0 0x0 0x0
  rwa [nibble_and_zeros, nibble_and_zeros, nibble_and_zeros] at hmask

/-! ## The encoder after the decoder -/

/-- The decoder's row has the word's own first nibble as its opcode (rule R67). -/
theorem opcode_decodeWord (w : Word) : (decodeWord w).opcode = d0 w := by
  apply BitVec.eq_of_toNat_eq
  have hlt := (d0 w).isLt
  interval_cases hopcode : (d0 w).toNat
  all_goals simp only [decodeWord, hopcode]; rfl

theorem encode_decodeWord (w : Word) : encode (decodeWord w) = wordOfParts (d0 w) (decodeWord w).operands := by
  rw [encode, opcode_decodeWord]

/-- Every row but MOVE's, ROT's and HALT's holds all twelve operand bits (rules R62 and R69). -/
theorem operands_decodeWord {w : Word} (hmove : d0 w ≠ 0x4) (hrot : d0 w ≠ 0xA) (hhalt : d0 w ≠ 0xC) :
    (decodeWord w).operands = operandBits w := by
  unfold decodeWord
  split
  case h_1 | h_15 | h_16 => rfl
  case h_2 | h_3 | h_4 | h_12 | h_14 => exact (operandBits_eq_rxy w).symm
  case h_6 | h_7 | h_8 | h_9 | h_10 => exact (operandBits_eq_rst w).symm
  case h_5 hopcode => exact absurd (BitVec.eq_of_toNat_eq hopcode) hmove
  case h_11 hopcode => exact absurd (BitVec.eq_of_toNat_eq hopcode) hrot
  case h_13 hopcode => exact absurd (BitVec.eq_of_toNat_eq hopcode) hhalt

/-- Settles O3: three rows write an ignored nibble as 0, which is the mask of that nibble; the others hold every operand
bit. -/
theorem encodeDecodeClearsIgnoredNibbles : Obligations.EncodeDecodeClearsIgnoredNibbles := by
  intro w
  rw [encode_decodeWord]
  split_ifs with hmove hrot hhalt
  · rw [word_clear_d1]
    simp [decodeWord, hmove, Instr.operands]
  · rw [word_clear_d2]
    simp [decodeWord, hrot, Instr.operands]
  · rw [word_clear_operands]
    simp [decodeWord, hhalt, Instr.operands]
  · rw [operands_decodeWord hmove hrot hhalt, word_parts]

/-! ## The row that the first nibble selects -/

theorem opcode_decodeBytes_toNat (b0 b1 : Byte) : (decodeBytes b0 b1).opcode.toNat = b0.toNat / 16 := by
  rw [decodeBytes, opcode_decodeWord, d0_wordOf_toNat]

/-- The 13 instructions are the rows of opcodes 1 to 13 (rule R68). -/
theorem wellFormed_eq (i : Instr) : i.wellFormed = decide (1 ≤ i.opcode.toNat ∧ i.opcode.toNat ≤ 13) := by
  cases i <;> rfl

/-- The subcause by the opcode (rule R202). -/
theorem subcause_eq (i : Instr) :
    i.subcause = if i.opcode.toNat = 0 then some .malformedWord
      else if 14 ≤ i.opcode.toNat then some .unrecognizedOpcode else none := by
  cases i <;> rfl

theorem decode_of_subcause_none {b0 b1 : Byte} (h : (decodeBytes b0 b1).subcause = none) :
    decode b0 b1 = .ok (decodeBytes b0 b1) := by
  simp only [decode, h]

theorem decode_of_subcause_some {b0 b1 : Byte} {sub : Subcause} (h : (decodeBytes b0 b1).subcause = some sub) :
    decode b0 b1 = .error sub := by
  simp only [decode, h]

/-- Settles O4: the opcode is the first nibble, and both `wellFormed` and the subcause are functions of the opcode. -/
theorem firstNibbleSelectsInstruction : Obligations.FirstNibbleSelectsInstruction := by
  intro b0 b1
  have hopcode := opcode_decodeBytes_toNat b0 b1
  have hwf := wellFormed_eq (decodeBytes b0 b1)
  have hsub := subcause_eq (decodeBytes b0 b1)
  rw [hopcode] at hwf hsub
  refine ⟨hopcode, fun hvalid => ⟨?_, decode_of_subcause_none ?_⟩,
    fun hzero => ⟨?_, decode_of_subcause_some ?_⟩, fun hlarge => ⟨?_, decode_of_subcause_some ?_⟩⟩
  · rw [hwf, decide_eq_true hvalid]
  · rw [hsub, if_neg (by omega), if_neg (by omega)]
  · rw [hwf, decide_eq_false (by omega)]
  · rw [hsub, if_pos hzero]
  · rw [hwf, decide_eq_false (by omega)]
  · rw [hsub, if_neg (by omega), if_pos hlarge]

end Sys2Proof

namespace Sys2Proof.Machine

/-! ## The decoder over text -/

/-- Both parses of a rendered nibble give its value (rules R61 and R63). -/
theorem hexValue_hexChar : ∀ n : Nibble, hexValue (hexChar n) = some n.toNat := by decide

theorem operandDigit_hexChar : ∀ n : Nibble, operandDigit (hexChar n) = some n.toNat := by decide

theorem highNibble_first (b0 b1 : Byte) : b0.extractLsb' 4 4 = d0 (wordOf b0 b1) := by
  apply BitVec.eq_of_toNat_eq
  have := b0.isLt
  rw [d0_wordOf_toNat, BitVec.extractLsb'_toNat, Nat.shiftRight_eq_div_pow]
  omega

theorem lowNibble_first (b0 b1 : Byte) : b0.extractLsb' 0 4 = d1 (wordOf b0 b1) := by
  apply BitVec.eq_of_toNat_eq
  rw [d1_wordOf_toNat, BitVec.extractLsb'_toNat, Nat.shiftRight_zero]

theorem highNibble_second (b0 b1 : Byte) : b1.extractLsb' 4 4 = d2 (wordOf b0 b1) := by
  apply BitVec.eq_of_toNat_eq
  have := b1.isLt
  rw [d2_wordOf_toNat, BitVec.extractLsb'_toNat, Nat.shiftRight_eq_div_pow]
  omega

theorem lowNibble_second (b0 b1 : Byte) : b1.extractLsb' 0 4 = d3 (wordOf b0 b1) := by
  apply BitVec.eq_of_toNat_eq
  rw [d3_wordOf_toNat, BitVec.extractLsb'_toNat, Nat.shiftRight_zero]

/-- Two operand digits are the byte field (rule R64). -/
theorem ofNat_digits_eq_fieldXy (w : Word) : BitVec.ofNat 8 ((d2 w).toNat * 16 + (d3 w).toNat) = fieldXy w := by
  apply BitVec.eq_of_toNat_eq
  rw [BitVec.toNat_ofNat, d2_toNat, d3_toNat, fieldXy_toNat]
  omega

/-- Where the first byte renders to two characters, the text is the word's four nibbles. -/
theorem wordText_long {b0 : Byte} (hlong : ¬ b0.toNat < 16) (b1 : Byte) :
    wordText b0 b1 = [hexChar (d0 (wordOf b0 b1)), hexChar (d1 (wordOf b0 b1)), hexChar (d2 (wordOf b0 b1)),
      hexChar (d3 (wordOf b0 b1))] := by
  rw [wordText, renderShort, if_neg hlong, renderPadded, highNibble_first b0 b1, lowNibble_first b0 b1,
    highNibble_second b0 b1, lowNibble_second b0 b1]
  rfl

/-- A word that renders short has three characters and is malformed (rule R61). -/
theorem decodeText_short {b0 : Byte} (hshort : b0.toNat < 16) (b1 : Byte) :
    decodeText (wordText b0 b1) = .error .malformedWord := by
  rw [wordText, renderShort, if_pos hshort, renderPadded]
  rfl

/-- The table of rule R67 over digit values is the table over bit fields, for every opcode digit but 0. -/
theorem instrOfDigits_eq_decode {b0 b1 : Byte} (hlong : (d0 (wordOf b0 b1)).toNat ≠ 0) :
    instrOfDigits (d0 (wordOf b0 b1)).toNat (d1 (wordOf b0 b1)).toNat (d2 (wordOf b0 b1)).toNat
      (d3 (wordOf b0 b1)).toNat = decode b0 b1 := by
  have hlt := (d0 (wordOf b0 b1)).isLt
  generalize hw : wordOf b0 b1 = w at *
  have hpos : 1 ≤ (d0 w).toNat := Nat.one_le_iff_ne_zero.mpr hlong
  interval_cases hopcode : (d0 w).toNat
  all_goals
    simp [decode, decodeBytes, hw, decodeWord, hopcode, instrOfDigits, Instr.subcause, ofNat_digits_eq_fieldXy]

/-- Settles O5: a short text is malformed as its opcode 0 is, and a long one has the word's four nibbles as digits. -/
theorem textDecoderEqualsBitDecoder : Obligations.TextDecoderEqualsBitDecoder := by
  intro b0 b1
  by_cases hshort : b0.toNat < 16
  · obtain ⟨-, -, hmalformed, -⟩ := firstNibbleSelectsInstruction b0 b1
    rw [decodeText_short hshort, (hmalformed (by omega)).2]
  · have hopcode : (d0 (wordOf b0 b1)).toNat ≠ 0 := by rw [d0_wordOf_toNat]; omega
    rw [wordText_long hshort, ← instrOfDigits_eq_decode hopcode]
    simp only [decodeText, hexValue_hexChar, operandDigit_hexChar]

end Sys2Proof.Machine
end

section
/-! The controller interface (40_engine_cycle.md section 4): what each call answers and keeps, and the program load. -/

namespace Sys2Proof.Machine

/-! ## What every call but a step keeps -/

/-- What a call that is no step never touches: the output channel and the fault mark; and it keeps the memory's
canonical form. -/
structure ControllerFrame (s t : State) : Prop where
  out : t.out = s.out
  fault : t.fault = s.fault
  canonical : s.MemoryCanonical → t.MemoryCanonical

theorem ControllerFrame.refl (s : State) : ControllerFrame s s := ⟨rfl, rfl, id⟩

theorem ControllerFrame.trans {s t u : State} (hst : ControllerFrame s t) (htu : ControllerFrame t u) :
    ControllerFrame s u :=
  ⟨htu.out.trans hst.out, htu.fault.trans hst.fault, htu.canonical ∘ hst.canonical⟩

theorem memWrite_controllerFrame (a : Nat) (v : Byte) (s : State) : ControllerFrame s (memWrite a v s) := by
  obtain ⟨-, -, -, hout, hfault⟩ := memWrite_frame a v s
  exact ⟨hout, hfault, memWrite_wf a v s⟩

theorem loadWords_controllerFrame (words : List (Byte × Byte)) (a : Nat) (s : State) :
    ControllerFrame s (loadWords a words s) :=
  loadWords_keeps (P := ControllerFrame s) (fun a v u hu => hu.trans (memWrite_controllerFrame a v u)) words a s
    (.refl s)

theorem memRead_controllerFrame (a : Nat) (s : State) : ControllerFrame s (memRead a s).2 := by
  unfold memRead
  split <;> exact ⟨rfl, rfl, id⟩

/-- A call that answers is a step, or it stays in the controller's frame. -/
theorem call_cases {c : Call} {s t : State} {reply : Reply} (hcall : call c s = .next (t, reply)) :
    (c = .fetchAndExecute ∧ step s = .next t) ∨ (c ≠ .fetchAndExecute ∧ ControllerFrame s t) := by
  cases c with
  | fetchAndExecute =>
    simp only [call, fetchAndExecute] at hcall
    split at hcall
    · next hstep =>
      cases hcall
      exact .inl ⟨rfl, hstep⟩
    · cases hcall
    · cases hcall
  | loadProgram tokens =>
    simp only [call, loadProgram] at hcall
    split at hcall
    · cases hcall
    · cases hcall
      exact .inr ⟨nofun, (loadWords_controllerFrame _ _ s).trans ⟨rfl, rfl, id⟩⟩
  | readReg i =>
    simp only [call, callReadReg] at hcall
    split at hcall <;> cases hcall
    exact .inr ⟨nofun, .refl s⟩
  | writeReg i v =>
    simp only [call, callWriteReg] at hcall
    split_ifs at hcall
    cases hcall
    exact .inr ⟨nofun, rfl, rfl, id⟩
  | readMem a =>
    cases hcall
    exact .inr ⟨nofun, memRead_controllerFrame a s⟩
  | writeMem a v =>
    simp only [call, callWriteMem] at hcall
    split at hcall <;> cases hcall
    exact .inr ⟨nofun, memWrite_controllerFrame a _ s⟩
  | writePC v =>
    simp only [call, callWritePC] at hcall
    split at hcall <;> cases hcall
    exact .inr ⟨nofun, rfl, rfl, id⟩
  | running | halt | start | readPC | readOut | readDiag =>
    cases hcall
    exact .inr ⟨nofun, rfl, rfl, id⟩

/-- Settles O45: a call is a step, which keeps the form, or stays in the controller's frame. -/
theorem controllerKeepsMemoryCanonical : Obligations.ControllerKeepsMemoryCanonical := by
  intro c s t reply hcanonical hcall
  rcases call_cases hcall with ⟨-, hstep⟩ | ⟨-, hframe⟩
  · exact step_keeps_memoryCanonical hcanonical hstep
  · exact hframe.canonical hcanonical

/-- Settles O34: `Effect.out_cases` for the step's instruction; the other calls stay in the controller's frame. -/
theorem onlyStoreToCellZeroEmitsOutput : Obligations.OnlyStoreToCellZeroEmitsOutput := by
  refine ⟨fun s t hstep => ?_, fun c s t reply hne hcall => ?_⟩
  · rcases step_cases hstep with ⟨-, -, rfl⟩ | ⟨henabled, -, heffect⟩
    · exact .inl rfl
    · rcases heffect.out_cases with hkept | ⟨r, hstore, hout⟩
      · exact .inl (hkept.trans (fetch_out s))
      · exact .inr ⟨r, henabled, hstore, by rw [hout, fetch_out, readReg_fetch]⟩
  · rcases call_cases hcall with ⟨heq, -⟩ | ⟨-, hframe⟩
    · exact absurd heq hne
    · exact hframe.out

/-- Settles O37: `step_sets_fault_iff` for an enabled step; a marked state has no step that answers, and the other
calls stay in the controller's frame. -/
theorem faultMarkOnlyFromAddOverflow : Obligations.FaultMarkOnlyFromAddOverflow := by
  refine ⟨fun s t hrun hfault hstep => step_sets_fault_iff ⟨hrun, hfault⟩ hstep, fun c s t reply hcall => ?_⟩
  rcases call_cases hcall with ⟨heq, hstep⟩ | ⟨-, hframe⟩
  · refine ⟨fun hmarked => ?_, fun hne => absurd heq hne⟩
    obtain ⟨f, hf⟩ := Option.ne_none_iff_exists'.mp hmarked
    rw [step_marked hf] at hstep
    cases hstep
  · exact ⟨fun _ => hframe.fault, fun _ => hframe.fault⟩

/-! ## The accessors -/

/-- Settles O43: in range each call is one update or one read, which the state's laws describe; out of range it is
refused by its own check. -/
theorem registerPcAndChannelAccessors : Obligations.RegisterPcAndChannelAccessors := by
  intro i v p s
  refine ⟨fun hi hv => ⟨writeReg (BitVec.ofNat 4 i) (BitVec.ofNat 8 v) s, ?_, ?_, ?_⟩, fun hi hv => ?_,
    fun hi => ⟨?_, ?_⟩, fun hp => ⟨setPc (BitVec.ofNat 9 p) s, ?_, ?_, rfl, onlyPcMoved_setPc _ s⟩,
    fun hp => ?_, rfl, rfl⟩
  · rw [call, callWriteReg, if_pos hi, if_pos hv]
  · rw [call, callReadReg, if_pos hi, readReg_writeReg_self]
  · exact ⟨fun q hq => readReg_writeReg_other hq _ s, fun _ => rfl, ⟨rfl, rfl⟩, ⟨rfl, rfl⟩, rfl⟩
  · rw [call, callWriteReg, if_pos hi, if_neg (Nat.not_lt.mpr hv)]
  · rw [call, callWriteReg, if_neg (Nat.not_lt.mpr hi)]
  · rw [call, callReadReg, if_neg (Nat.not_lt.mpr hi)]
  · rw [call, callWritePC, if_pos hp]
  · exact (BitVec.toNat_ofNat p 9).trans (Nat.mod_eq_of_lt hp)
  · rw [call, callWritePC, if_neg (Nat.not_lt.mpr hp)]

/-- Settles O44: the calls are the memory's contract (O27) after a check of the value. -/
theorem memoryAccessors : Obligations.MemoryAccessors := by
  intro a v s
  obtain ⟨hinside, houtside⟩ := memoryContractReadAndWrite a (BitVec.ofNat 8 v) s
  refine ⟨fun ha hv => ?_, fun ha hv => ?_, fun ha => ?_, fun hv => ?_⟩
  · obtain ⟨-, hget, hcells, hregs, hchannels, hmode, hpc⟩ := hinside ha
    refine ⟨memWrite a (BitVec.ofNat 8 v) s, ?_, ?_, hcells, hregs, hchannels, hmode, hpc⟩
    · rw [call, callWriteMem, if_pos hv]
    · rw [call, callReadMem, memRead_inRange ha, hget]
  · rw [call, callWriteMem, if_pos hv, (houtside ha).2]
  · rw [call, callReadMem, (houtside ha).1]
  · rw [call, callWriteMem, if_neg (Nat.not_lt.mpr hv)]

/-! ## The tokens of a program (rules R71 and R90) -/

/-- A hex digit of either case, as a range of characters. -/
theorem hexValue_ne_none_iff (c : Char) :
    hexValue c ≠ none ↔ ('0' ≤ c ∧ c ≤ '9') ∨ ('A' ≤ c ∧ c ≤ 'F') ∨ ('a' ≤ c ∧ c ≤ 'f') := by
  change _ ↔ (48 ≤ c.toNat ∧ c.toNat ≤ 57) ∨ (65 ≤ c.toNat ∧ c.toNat ≤ 70) ∨ (97 ≤ c.toNat ∧ c.toNat ≤ 102)
  unfold hexValue
  split_ifs with hdecimal hupper hlower
  · simp [hdecimal]
  · simp [hupper]
  · simp [hlower]
  · simp only [hdecimal, hupper, hlower, or_self, ne_eq, not_true_eq_false]

theorem tokenBytes_four_ne_none_iff (c0 c1 c2 c3 : Char) :
    tokenBytes [c0, c1, c2, c3] ≠ none ↔ ∀ c ∈ [c0, c1, c2, c3], hexValue c ≠ none := by
  simp only [tokenBytes]
  split
  · next h0 h1 h2 h3 => simp [h0, h1, h2, h3]
  · next hmissing =>
    refine iff_of_false (not_not.mpr rfl) fun hall => ?_
    simp only [List.forall_mem_cons, Option.ne_none_iff_exists'] at hall
    obtain ⟨⟨v0, h0⟩, ⟨v1, h1⟩, ⟨v2, h2⟩, ⟨v3, h3⟩, -⟩ := hall
    exact hmissing v0 v1 v2 v3 h0 h1 h2 h3

/-- A token has bytes exactly if it is four characters with values. -/
theorem tokenBytes_ne_none_iff (token : List Char) :
    tokenBytes token ≠ none ↔ token.length = 4 ∧ ∀ c ∈ token, hexValue c ≠ none := by
  by_cases hlength : token.length = 4
  · obtain ⟨c0, c1, c2, c3, rfl⟩ := List.length_eq_four.mp hlength
    rw [tokenBytes_four_ne_none_iff]
    exact (and_iff_right hlength).symm
  · have hnone : tokenBytes token = none := by
      unfold tokenBytes
      split
      · exact absurd rfl hlength
      · rfl
    simp [hnone, hlength]

theorem tokenBytes_ne_none_of_hexToken {token : List Char} (htoken : HexToken token) : tokenBytes token ≠ none := by
  obtain ⟨c0, c1, c2, c3, v0, v1, v2, v3, rfl, h0, h1, h2, h3⟩ := htoken
  rw [tokenBytes_of_hexDigits h0 h1 h2 h3]
  exact Option.some_ne_none _

/-- A program's bytes are its tokens' bytes in order. -/
theorem programBytes_eq_some {tokens : List (List Char)} {words : List (Byte × Byte)}
    (hwords : programBytes tokens = some words) : tokens.map tokenBytes = words.map some := by
  induction tokens generalizing words with
  | nil =>
    cases hwords
    rfl
  | cons token rest ih =>
    simp only [programBytes] at hwords
    split at hwords
    · next bytes more hbytes hmore =>
      cases hwords
      rw [List.map_cons, List.map_cons, hbytes, ih hmore]
    · cases hwords

/-- A program has no bytes exactly if one of its tokens has none. -/
theorem programBytes_eq_none_iff (tokens : List (List Char)) :
    programBytes tokens = none ↔ ∃ token ∈ tokens, tokenBytes token = none := by
  induction tokens with
  | nil => simp [programBytes]
  | cons token rest ih =>
    rw [List.exists_mem_cons_iff, ← ih, programBytes]
    cases tokenBytes token <;> cases programBytes rest <;> simp

theorem loadProgram_refused_iff (tokens : List (List Char)) (s : State) :
    call (.loadProgram tokens) s = .refused .badToken ↔ programBytes tokens = none := by
  rw [call, loadProgram]
  cases programBytes tokens <;> simp

/-- Settles O42: the call is refused exactly if a token has no bytes. -/
theorem loadProgramRefusesBadTokens : Obligations.LoadProgramRefusesBadTokens := by
  intro tokens s
  rw [loadProgram_refused_iff, programBytes_eq_none_iff]
  refine exists_congr fun token => and_congr_right fun _ => ?_
  simp only [← hexValue_ne_none_iff, ← tokenBytes_ne_none_iff, not_not]

/-! ## Where a program's words go (rule R90) -/

/-- A load leaves every address before it, after it or past the memory. -/
theorem get_loadWords_other (words : List (Byte × Byte)) {a b : Nat} (s : State)
    (hother : b < a ∨ a + 2 * words.length ≤ b ∨ 256 ≤ b) :
    Memory.get (loadWords a words s).mem b = Memory.get s.mem b := by
  induction words generalizing a s with
  | nil => rfl
  | cons word words ih =>
    rw [List.length_cons] at hother
    rw [loadWords, ih _ (by omega), get_memWrite, get_memWrite, if_neg (by omega), if_neg (by omega)]

/-- The i-th word lies at `a + 2 * i`, high byte first, as far as the memory goes. -/
theorem get_loadWords_word {words : List (Byte × Byte)} {i : Nat} {high low : Byte}
    (hword : words[i]? = some (high, low)) (a : Nat) (s : State) :
    (a + 2 * i < 256 → Memory.get (loadWords a words s).mem (a + 2 * i) = high) ∧
    (a + 1 + 2 * i < 256 → Memory.get (loadWords a words s).mem (a + 1 + 2 * i) = low) := by
  induction words generalizing a s i with
  | nil => cases hword
  | cons word words ih =>
    cases i with
    | zero =>
      obtain rfl : word = (high, low) := Option.some.inj hword
      rw [loadWords, get_loadWords_other _ _ (.inl (by omega)), get_loadWords_other _ _ (.inl (by omega))]
      simp +contextual [get_memWrite]
    | succ i =>
      obtain ⟨hhigh, hlow⟩ := ih hword (a + 2) (memWrite (a + 1) word.2 (memWrite a word.1 s))
      have haddr : a + 2 * (i + 1) = a + 2 + 2 * i := by omega
      have haddr' : a + 1 + 2 * (i + 1) = a + 2 + 1 + 2 * i := by omega
      rw [haddr, haddr']
      exact ⟨hhigh, hlow⟩

/-- The reports of writes to some addresses: one for each address past the memory, in order. -/
def writeReports (addresses : List Nat) : List Diagnostic :=
  (addresses.filter fun a => decide (256 ≤ a)).map (.outOfBoundsAccess .write ·)

theorem writeReports_append (as bs : List Nat) : writeReports (as ++ bs) = writeReports as ++ writeReports bs := by
  simp [writeReports]

theorem memWrite_diag (a : Nat) (v : Byte) (s : State) :
    (memWrite a v s).diag = s.diag ++ writeReports [a] := by
  rcases Nat.lt_or_ge a 256 with ha | ha
  · simp [memWrite_inRange ha, writeReports, Nat.not_le.mpr ha]
  · simp [memWrite_outOfRange ha, writeReports, ha]

theorem loadWords_diag (words : List (Byte × Byte)) (a : Nat) (s : State) :
    (loadWords a words s).diag = s.diag ++ writeReports (List.range' a (2 * words.length)) := by
  induction words generalizing a s with
  | nil => exact (List.append_nil _).symm
  | cons word words ih =>
    have haddresses : List.range' a (2 * (word :: words).length) =
        [a] ++ [a + 1] ++ List.range' (a + 2) (2 * words.length) := rfl
    rw [loadWords, ih, memWrite_diag, memWrite_diag, haddresses, writeReports_append, writeReports_append,
      List.append_assoc, List.append_assoc, List.append_assoc]

theorem loadWords_regs_run (words : List (Byte × Byte)) (a : Nat) (s : State) :
    (loadWords a words s).regs = s.regs ∧ (loadWords a words s).run = s.run := by
  refine loadWords_keeps (P := fun u => u.regs = s.regs ∧ u.run = s.run) (fun b v u hu => ?_) words a s ⟨rfl, rfl⟩
  obtain ⟨hregs, -, hrun, -, -⟩ := memWrite_frame b v u
  exact ⟨hregs.trans hu.1, hrun.trans hu.2⟩

/-- A load of a program with bytes is the load of its words, and `pc` at the load offset. -/
theorem call_loadProgram {tokens : List (List Char)} {words : List (Byte × Byte)}
    (hwords : programBytes tokens = some words) (s : State) :
    call (.loadProgram tokens) s = .next (setPc (BitVec.ofNat 9 0x10) (loadWords 0x10 words s), .done) := by
  rw [call, loadProgram, hwords]
  rfl

/-- The i-th word of a program's bytes is the value of the i-th token's digits. -/
theorem programBytes_getElem {tokens : List (List Char)} {words : List (Byte × Byte)}
    (hwords : programBytes tokens = some words) {i : Nat} {c0 c1 c2 c3 : Char} {v0 v1 v2 v3 : Nat}
    (htoken : tokens[i]? = some [c0, c1, c2, c3]) (h0 : HexDigit c0 v0) (h1 : HexDigit c1 v1) (h2 : HexDigit c2 v2)
    (h3 : HexDigit c3 v3) :
    words[i]? = some (BitVec.ofNat 8 (v0 * 16 + v1), BitVec.ofNat 8 (v2 * 16 + v3)) := by
  have hmap := congrArg (·[i]?) (programBytes_eq_some hwords)
  simpa [htoken, tokenBytes_of_hexDigits h0 h1 h2 h3, eq_comm] using hmap

/-- Two hex digits are the number of the byte they write. -/
theorem toNat_ofNat_hexDigits {c d : Char} {v w : Nat} (hv : HexDigit c v) (hw : HexDigit d w) :
    (BitVec.ofNat 8 (v * 16 + w)).toNat = v * 16 + w := by
  have := hexDigit_lt hv
  have := hexDigit_lt hw
  rw [BitVec.toNat_ofNat]
  omega

/-- Settles O41: tokens of hex digits have bytes, and the load of their words is described address by address and
report by report. -/
theorem loadProgramPlacesWords : Obligations.LoadProgramPlacesWords := by
  intro tokens s htokens
  obtain ⟨words, hwords⟩ : ∃ words, programBytes tokens = some words := by
    refine Option.ne_none_iff_exists'.mp fun hnone => ?_
    obtain ⟨token, hmem, htoken⟩ := (programBytes_eq_none_iff tokens).mp hnone
    exact tokenBytes_ne_none_of_hexToken (htokens token hmem) htoken
  have hlength : tokens.length = words.length := by
    simpa using congrArg List.length (programBytes_eq_some hwords)
  have hframe := loadWords_controllerFrame words 0x10 s
  obtain ⟨hregs, hrun⟩ := loadWords_regs_run words 0x10 s
  refine ⟨_, call_loadProgram hwords s, rfl, ?_, ?_, ?_, readReg_congr hregs, ⟨hrun, hframe.fault⟩, hframe.out⟩
  · intro i c0 c1 c2 c3 v0 v1 v2 v3 htoken h0 h1 h2 h3
    obtain ⟨hhigh, hlow⟩ := get_loadWords_word (programBytes_getElem hwords htoken h0 h1 h2 h3) 0x10 s
    refine ⟨fun hlt => ?_, fun hlt => ?_⟩
    · rw [setPc_mem, hhigh hlt, toNat_ofNat_hexDigits h0 h1]
    · rw [setPc_mem, hlow hlt, toNat_ofNat_hexDigits h2 h3]
  · intro a hother
    exact get_loadWords_other words s (by rwa [← hlength])
  · rw [setPc_diag, loadWords_diag, hlength, List.range'_eq_map_range]
    rfl

end Sys2Proof.Machine
end
